-- ==== Sys2Proof/Word.lean ====
section
/-! DEFINITION. The words of the block: bytes, digits, and a group of four like things. -/

namespace Sys2Proof

/-- An 8-bit register or datum: the widest of the block (20_memory.md R62). -/
abbrev Byte := BitVec 8

/-- The content of one DIGIT register, 4 bits wide (10_state.md R21). -/
abbrev Digit := BitVec 4

/-- Four like things indexed by 0..3: the digit file, or one entry per common line or per digit position. -/
structure Quad (α : Type) where
  q0 : α
  q1 : α
  q2 : α
  q3 : α
  deriving DecidableEq, Repr

namespace Quad

/-- The entry at index `i`. -/
def get {α : Type} (q : Quad α) : Fin 4 → α
  | 0 => q.q0
  | 1 => q.q1
  | 2 => q.q2
  | 3 => q.q3

/-- `q` with the entry at index `i` replaced. -/
def set {α : Type} (q : Quad α) (i : Fin 4) (v : α) : Quad α :=
  match i with
  | 0 => { q with q0 := v }
  | 1 => { q with q1 := v }
  | 2 => { q with q2 := v }
  | 3 => { q with q3 := v }

/-- The same function applied to the four entries. -/
def map {α β : Type} (f : α → β) (q : Quad α) : Quad β :=
  ⟨f q.q0, f q.q1, f q.q2, f q.q3⟩

/-- The four entries, index 0 first. -/
def toList {α : Type} (q : Quad α) : List α :=
  [q.q0, q.q1, q.q2, q.q3]

end Quad

end Sys2Proof
end

