-- ==== Sys2Proof/Config.lean ====
section
/-! DEFINITION. The parameters of the block (00_scope.md R6, R7, R8), as one record with the spec's defaults.
They are fixed for a machine: no operation writes them (10_state.md R36). -/

namespace Sys2Proof

/-- The parameters the spec asks a model to take as named arguments (00_scope.md R7 and R8).
The three register widths of R8 are arguments of the type, which State has too; where they are not written they are the defaults
8, 4 and 8 (DESIGN CHOICE of the spec, D1, D3, D4: log 1, 2, 5). -/
structure Config (phaseWidth : Nat := 8) (digitWidth : Nat := 4) (intervalWidth : Nat := 8) where
  /-- TICK_PERIOD in milliseconds (R7). No rule of the machine depends on it. -/
  tickPeriodMs : Nat
  /-- INTERVAL_THRESHOLD (R7). -/
  intervalThreshold : Nat
  /-- SEGLUT, the ten entries of the lookup ROM (R7, R8, 30_encoding.md R100). -/
  segLut : Vector Byte 10
  /-- GROUP_SHIFT[k]: offset in a pattern of the group of common line k (R8, 30_encoding.md R96). -/
  groupShift : Quad Nat
  /-- SLOT_SHIFT[d]: offset in the combined byte of the group of digit d (R8, 30_encoding.md R97). -/
  slotShift : Quad Nat
  /-- COM_BIT[k]: the bit of the common port that is common line k (R8, 10_state.md R33). -/
  comBit : Quad Nat
  /-- OVERFLOW_SKIPS_ZERO: is the count after 9999 the number 0001 (R8, 43_bcd_counter.md R183). -/
  overflowSkipsZero : Bool
  /-- FLOAT_LEVEL in units of half the supply, for the balance analysis only (R8, 41_refresh_state_machine.md R160).
  DESIGN CHOICE (log 15): the spec gives the level no type, and an integer can only be a whole number of half supplies. -/
  floatLevel : Int
  deriving DecidableEq, Repr

namespace Config

variable {pw dw iw : Nat}

/-- The machine with every parameter at the spec's default (R7, R8; DESIGN CHOICE of the spec, its decisions D7 to D10, D14, D19:
log 6, 8, 9, 11, 12, 15). SEGLUT(0) and SEGLUT(8) are the document's. -/
def machine : Config where
  tickPeriodMs := 2
  intervalThreshold := 100
  segLut := #v[0xED, 0x84, 0xD9, 0xD5, 0xB4, 0x75, 0x7D, 0xC4, 0xFD, 0xF5]
  groupShift := ⟨0, 2, 4, 6⟩
  slotShift := ⟨0, 2, 4, 6⟩
  comBit := ⟨0, 1, 2, 3⟩
  overflowSkipsZero := false
  floatLevel := 1

/-- The shifts of R8 are distinct members of {0, 2, 4, 6}. -/
def shiftsOk (q : Quad Nat) : Bool :=
  q.toList.all (fun n => n == 0 || n == 2 || n == 4 || n == 6) && decide q.toList.Nodup

/-- The four COM_BIT values are distinct members of 0..7 (R8). -/
def comBitsOk (q : Quad Nat) : Bool :=
  q.toList.all (fun n => decide (n < 8)) && decide q.toList.Nodup

/-- The two table entries the document prints (R7: SegmentPattern(0) = 0xED, SegmentPattern(8) = 0xFD). -/
def tablePinned (c : Config pw dw iw) : Bool :=
  c.segLut[0] == 0xED && c.segLut[8] == 0xFD

/-- The widths hold what R8 asks: PHASE_WIDTH ≥ 3, DIGIT_WIDTH ≥ 4, 2^INTERVAL_WIDTH > INTERVAL_THRESHOLD. -/
def widthsOk (c : Config pw dw iw) : Bool :=
  decide (3 ≤ pw) && decide (4 ≤ dw) && decide (c.intervalThreshold < 2 ^ iw)

/-- The constraints every instance of the parameters must meet (00_scope.md R7, R8). -/
def Admissible (c : Config pw dw iw) : Bool :=
  c.widthsOk && shiftsOk c.groupShift && shiftsOk c.slotShift && comBitsOk c.comBit && c.tablePinned

/-! Durations in milliseconds derived from the parameters (70_reset_and_hazards.md R280). -/

/-- One frame: eight phases (R280). -/
def frameMs (c : Config pw dw iw) : Nat := 8 * c.tickPeriodMs

/-- How long a common line is driven in one frame: one phase low and one phase high (R280). -/
def driveMs (c : Config pw dw iw) : Nat := 2 * c.tickPeriodMs

/-- How long one number is shown (R280, 43_bcd_counter.md R184). -/
def numberStepMs (c : Config pw dw iw) : Nat := c.intervalThreshold * c.tickPeriodMs

/-- How long the count takes from 0000 back to 0000 (R280, 43_bcd_counter.md R184). -/
def fullCountMs (c : Config pw dw iw) : Nat := 10000 * c.numberStepMs

end Config

end Sys2Proof
end

