-- ==== Sys2Proof/Syntax.lean ====
section
/-! DEFINITION. The operations of spec/opcode_table.json, and the trace notation of 30_encoding.md R108. -/

namespace Sys2Proof

/-- The operations of the block (00_scope.md R9, spec/opcode_table.json), one constructor per mnemonic.
The five rows of OFF are one operation whose operand is its code (30_encoding.md R93; DESIGN CHOICE, log 28). -/
inductive Instr where
  /-- COM0L, phase code 0: common line 0, LOW-assert, data load (41_refresh_state_machine.md R142). -/
  | com0L
  /-- COM0H, phase code 1: common line 0, HIGH-assert, inverted reuse (R143). -/
  | com0H
  /-- COM1L, phase code 2 (R144). -/
  | com1L
  /-- COM1H, phase code 3 (R145). -/
  | com1H
  /-- COM2L, phase code 4 (R146). -/
  | com2L
  /-- COM2H, phase code 5 (R147). -/
  | com2H
  /-- COM3L, phase code 6 (R148). -/
  | com3L
  /-- COM3H, phase code 7 (R149). -/
  | com3H
  /-- OFF, phase codes 8 to 255: float all lines (R150). -/
  | off (code : Byte)
  /-- TICK, event: the timer fires (40_tick_source.md R120). -/
  | tick
  /-- SERVICE, event: the main loop consumes the pending tick (44_service_and_sleep.md R200). -/
  | service
  /-- SLEEP, event: the main loop halts until the next tick (44_service_and_sleep.md R205). -/
  | sleep
  /-- RESET, event: power-on (70_reset_and_hazards.md R260). -/
  | reset
  /-- ADVANCE, sub-step: step the phase register (41_refresh_state_machine.md R130). -/
  | advance
  /-- PACK(k), sub-step: the combined byte of common line k (R135). -/
  | pack (k : Fin 4)
  /-- LUT(v), sub-step: the segment pattern of digit value v (42_segment_lookup.md R170). -/
  | lut (v : Digit)
  /-- COUNT, sub-step: count one consumed tick (43_bcd_counter.md R180). -/
  | count
  /-- INCR, sub-step: add one to the decimal number (43_bcd_counter.md R182). -/
  | incr
  deriving DecidableEq, Repr

/-- The formats of spec/opcode_table.json (30_encoding.md R90, R102). -/
inductive Format where
  | phase8
  | event
  | substep
  deriving DecidableEq, Repr

/-- The format of each operation's row. -/
def Instr.format : Instr → Format
  | .com0L | .com0H | .com1L | .com1H | .com2L | .com2H | .com3L | .com3H | .off _ => .phase8
  | .tick | .service | .sleep | .reset => .event
  | .advance | .pack _ | .lut _ | .count | .incr => .substep

/-- What is supplied to the machine from outside, one at a time (30_encoding.md R108; log 21).
`reset`, `tick`, `service`, `sleep` and `emit` are the events of R108.
`timerFires` is the timer's own hardware event, which waits for GIE (60_exceptions.md R226; log 23).
`own` lets the machine make one move of its own, so that an event can be placed inside a service (60_exceptions.md R230; log 22). -/
inductive Event where
  | reset
  | tick
  | service
  | sleep
  | emit (p : Byte)
  | timerFires
  | own
  deriving DecidableEq, Repr

/-- One line of a trace: an event, or a pseudo-event of 30_encoding.md R108. -/
inductive TraceItem where
  | event (e : Event)
  /-- `n*T`: n consumed ticks (`T` is `1*T`). -/
  | consumed (n : Nat)
  /-- `FRAME`, that is `8*T`. -/
  | frame
  deriving DecidableEq, Repr

/-- `n*T` is `TICK ; SERVICE` repeated n times (30_encoding.md R108). -/
def consumedEvents : Nat → List Event
  | 0 => []
  | n + 1 => .tick :: .service :: consumedEvents n

/-- The expansion of one line (30_encoding.md R108). -/
def TraceItem.expand : TraceItem → List Event
  | .event e => [e]
  | .consumed n => consumedEvents n
  | .frame => consumedEvents 8

/-- The events of a program (30_encoding.md R108: a program is a sequence of events, run in order). -/
def expandTrace (items : List TraceItem) : List Event :=
  items.flatMap TraceItem.expand

end Sys2Proof
end

