-- ==== Sys2Proof/Machine/State.lean ====
section
/-! DEFINITION. The state of the machine, its reset value, and the reasons a step can stop. -/

namespace Sys2Proof
namespace Machine

/-- One access by which the main loop changes a register (20_memory.md R64, R65; 44_service_and_sleep.md R205).
Each is atomic, and a tick can fall between any two of them (20_memory.md R69(b)).
READY is only ever cleared by the main loop (70_reset_and_hazards.md R272), and GIE is only ever set (44_service_and_sleep.md R205). -/
inductive Write (phaseWidth : Nat := 8) (digitWidth : Nat := 4) (intervalWidth : Nat := 8) where
  /-- `pc <- v` -/
  | phase (v : BitVec phaseWidth)
  /-- `x[d] <- v` -/
  | digit (d : Fin 4) (v : BitVec digitWidth)
  /-- `INTERVAL <- v` -/
  | interval (v : BitVec intervalWidth)
  /-- `SEGBYTE <- v` -/
  | segByte (v : Byte)
  /-- `SEG_DIR <- v` -/
  | segDir (v : Byte)
  /-- `SEG_OUT <- v` -/
  | segOut (v : Byte)
  /-- `COM_DIR <- v` -/
  | comDir (v : Byte)
  /-- `COM_OUT <- v` -/
  | comOut (v : Byte)
  /-- `READY <- 0`, the last write of a SERVICE -/
  | clearReady
  /-- `SLEEP_EN <- b` -/
  | sleepEn (b : Bool)
  /-- `GIE <- 1` -/
  | enableInterrupts
  /-- `halt` of the SLEEP sequence -/
  | halt
  deriving DecidableEq, Repr

/-- Everything the spec gives the machine, and four fields of the model's own (`work`, `schedule`, `ticks`, `returned`).
The arguments are the widths of 00_scope.md R8. Where they are not written they are the defaults: `State` is the state of the machine. -/
structure State (phaseWidth : Nat := 8) (digitWidth : Nat := 4) (intervalWidth : Nat := 8) where
  /-- DIGIT[0..3], index 0 units (10_state.md R21). -/
  digits : Quad (BitVec digitWidth)
  /-- PHASE (10_state.md R24). -/
  phase : BitVec phaseWidth
  /-- READY (10_state.md R27). -/
  ready : Bool
  /-- INTERVAL (10_state.md R29). -/
  interval : BitVec intervalWidth
  /-- SEGBYTE (10_state.md R30). -/
  segByte : Byte
  /-- SEG_DIR (10_state.md R31). -/
  segDir : Byte
  /-- SEG_OUT (10_state.md R32). -/
  segOut : Byte
  /-- COM_DIR (10_state.md R33). -/
  comDir : Byte
  /-- COM_OUT (10_state.md R34). -/
  comOut : Byte
  /-- The timer's pending, unacknowledged hardware event (10_state.md R37(a), 60_exceptions.md R226). -/
  timerEvent : Bool
  /-- GIE, the processor's interrupt enable (10_state.md R37(b), 44_service_and_sleep.md R205). -/
  gie : Bool
  /-- SLEEP_EN, the sleep-enable bit (10_state.md R37(b), 44_service_and_sleep.md R205). -/
  sleepEn : Bool
  /-- Is the processor halted (10_state.md R37(b), 60_exceptions.md R248). -/
  halted : Bool
  /-- The accesses of the loop body in progress that are still to be made, in order (00_scope.md R11; log 19). -/
  work : List (Write phaseWidth digitWidth intervalWidth)
  /-- The events supplied from outside and not yet run, in order (10_state.md R36, 30_encoding.md R108; log 21). -/
  schedule : List Event
  /-- How many ticks have fired since reset: numbers the Overrun mark (60_exceptions.md R222; log 17). -/
  ticks : Nat
  /-- The Overrun mark: the number of each tick that was lost, oldest first; set when not empty (60_exceptions.md R222; log 17). -/
  overruns : List Nat
  /-- The byte a LUT or PACK performed alone returned to its caller (42_segment_lookup.md R170,
  41_refresh_state_machine.md R135; log 20). -/
  returned : Option Byte
  deriving DecidableEq, Repr

/-- Why the machine stops with a fault. -/
inductive Fault where
  /-- LutDomain (60_exceptions.md R222, 42_segment_lookup.md R172): a lookup with an index `v` above 9, for digit position `d` where the
  lookup is made for a digit. Raised by LUT, and through PACK by the LOW-assert operations and SERVICE.
  Safe: the hardware would go on with an undefined byte. -/
  | lutDomain (d : Option (Fin 4)) (v : Nat)
  deriving DecidableEq, Repr

/-- Why an event is not a step. -/
inductive Refusal where
  /-- ServiceNotReady (60_exceptions.md R222, 44_service_and_sleep.md R201): the event SERVICE with READY = 0. Raised by SERVICE.
  Safe: the main loop does not call the service then. -/
  | serviceNotReady
  /-- An operation of the table that has no meaning in the model. Raised by no arm of `exec`: every operation has its meaning. -/
  | notModelled (mnemonic : String)
  deriving DecidableEq, Repr

/-- The state after power-on, called cold start (10_state.md R40, 70_reset_and_hazards.md R260).
PHASE and the digits are the document's; the other registers are the spec's decision D5 (log 7); the host state is log 18;
the model's own fields are empty (log 17, 19, 20, 21). The same at every width of R8. -/
def State.coldStart {pw dw iw : Nat} : State pw dw iw where
  digits := ⟨0, 0, 0, 0⟩
  phase := 7
  ready := false
  interval := 0
  segByte := 0x00
  segDir := 0x00
  segOut := 0x00
  comDir := 0x00
  comOut := 0x00
  timerEvent := false
  gie := false
  sleepEn := false
  halted := false
  work := []
  schedule := []
  ticks := 0
  overruns := []
  returned := none

/-- The machine right after reset: cold start at the default widths. -/
def State.reset : State := State.coldStart

end Machine
end Sys2Proof
end

