-- ==== Sys2Proof/Machine/Ops.lean ====
section
/-! DEFINITION. The named operations over registers and the ROM: the one place where a register is written, the one load, and the
tick interrupt's entry and return. -/

namespace Sys2Proof
namespace Machine

variable {pw dw iw : Nat}

/-- The outcome of an operation. -/
abbrev Result (pw : Nat := 8) (dw : Nat := 4) (iw : Nat := 8) := Host.Outcome (State pw dw iw) Fault Refusal

/-- Sequential composition: the second operation runs on the state the first leaves; a stop of the first is the stop of both
(00_scope.md R14: `;` is composition, left before right). -/
def andThen (r : Result pw dw iw) (f : State pw dw iw → Result pw dw iw) : Result pw dw iw :=
  match r with
  | .next s => f s
  | .fault e => .fault e
  | .refused e => .refused e

/-! Registers by name. -/

/-- The registers of the block (10_state.md R20). -/
inductive Reg where
  | digit (d : Fin 4)
  | phase
  | ready
  | interval
  | segByte
  | segDir
  | segOut
  | comDir
  | comOut
  deriving DecidableEq, Repr

/-- The value a register holds, as an unsigned number (00_scope.md R13). -/
def readReg (s : State pw dw iw) : Reg → Nat
  | .digit d => (s.digits.get d).toNat
  | .phase => s.phase.toNat
  | .ready => s.ready.toNat
  | .interval => s.interval.toNat
  | .segByte => s.segByte.toNat
  | .segDir => s.segDir.toNat
  | .segOut => s.segOut.toNat
  | .comDir => s.comDir.toNat
  | .comOut => s.comOut.toNat

/-- The register an access changes, if it is one of the block (the accesses of the SLEEP sequence change host state). -/
def Write.target : Write pw dw iw → Option Reg
  | .phase _ => some .phase
  | .digit d _ => some (.digit d)
  | .interval _ => some .interval
  | .segByte _ => some .segByte
  | .segDir _ => some .segDir
  | .segOut _ => some .segOut
  | .comDir _ => some .comDir
  | .comOut _ => some .comOut
  | .clearReady => some .ready
  | .sleepEn _ | .enableInterrupts | .halt => none

/-- Make one access. A register is written whole (20_memory.md R64) and at once (70_reset_and_hazards.md R270).
The halt ends at once when a tick is pending in READY, as 44_service_and_sleep.md R206 requires of the host (log 23). -/
def performWrite (s : State pw dw iw) : Write pw dw iw → State pw dw iw
  | .phase v => { s with phase := v }
  | .digit d v => { s with digits := s.digits.set d v }
  | .interval v => { s with interval := v }
  | .segByte v => { s with segByte := v }
  | .segDir v => { s with segDir := v }
  | .segOut v => { s with segOut := v }
  | .comDir v => { s with comDir := v }
  | .comOut v => { s with comOut := v }
  | .clearReady => { s with ready := false }
  | .sleepEn b => { s with sleepEn := b }
  | .enableInterrupts => { s with gie := true }
  | .halt => { s with halted := !s.ready }

/-- Make accesses in order (20_memory.md R69(a)). -/
def performAll (s : State pw dw iw) (ws : List (Write pw dw iw)) : State pw dw iw :=
  ws.foldl performWrite s

/-- Run an operation that is a list of accesses, or a fault found while their values are computed. -/
def commit (ws : Except Fault (List (Write pw dw iw))) (s : State pw dw iw) : Result pw dw iw :=
  match ws with
  | .ok ws => .next (performAll s ws)
  | .error e => .fault e

/-! The ROM. -/

/-- `MemRead(SEGLUT + v, 1)`, defined only for v in 0..9 (00_scope.md R14). -/
def memRead (c : Config pw dw iw) (v : Nat) : Option Byte :=
  if h : v < 10 then some c.segLut[v] else none

/-- LUT(v) (42_segment_lookup.md R170): the entry, or LutDomain for v > 9 (R172). `d` is the digit position the lookup is made for. -/
def lookup (c : Config pw dw iw) (d : Option (Fin 4)) (v : Nat) : Except Fault Byte :=
  match memRead c v with
  | some b => .ok b
  | none => .error (.lutDomain d v)

/-! The tick interrupt (60_exceptions.md R225, R235, R236). -/

/-- The timer's hardware event. It stays pending until the handler acknowledges it (60_exceptions.md R226).
A firing while one is pending overwrites it: the earlier tick is lost in the timer, and marked as lost (log 17). -/
def fireTimer (s : State pw dw iw) : State pw dw iw :=
  { s with
    timerEvent := true
    ticks := s.ticks + 1
    overruns := if s.timerEvent then s.overruns ++ [s.ticks] else s.overruns }

/-- Entry: the processor leaves its halt, or suspends the main loop between two accesses (60_exceptions.md R235).
The block saves nothing: the main loop's place is `work`, which no part of the interrupt changes (log 31). -/
def enterInterrupt (s : State pw dw iw) : State pw dw iw :=
  { s with halted := false }

/-- The handler: acknowledge, set READY, and mark the tick as lost when READY was already 1
(40_tick_source.md R120, R121, R124; 60_exceptions.md R222, R231). -/
def tickHandler (s : State pw dw iw) : State pw dw iw :=
  { s with
    timerEvent := false
    ready := true
    overruns := if s.ready then s.overruns ++ [s.ticks] else s.overruns }

/-- Return: the main loop continues where it was (60_exceptions.md R236). The block has no return operation and restores nothing. -/
def returnFromInterrupt (s : State pw dw iw) : State pw dw iw := s

/-- Taking the tick interrupt, from entry to return. The handler is atomic (20_memory.md R69(b)) and does not nest (60_exceptions.md R236). -/
def takeInterrupt (s : State pw dw iw) : State pw dw iw :=
  returnFromInterrupt (tickHandler (enterInterrupt s))

end Machine
end Sys2Proof
end

