-- ==== Sys2Proof/Machine/Flags.lean ====
section
/-! DEFINITION. The tests the block makes. READY is its only flag (10_state.md R28): its writers are `tickHandler` and `Write.clearReady`.
The carry between digits and the interval's comparison are tests that leave no state behind. -/

namespace Sys2Proof
namespace Machine

variable {pw dw iw : Nat}

/-- The carry test of INCR: the digit has just reached 10 (43_bcd_counter.md R182). -/
def carryFrom (x : BitVec dw) : Bool := x.toNat == 10

/-- The interval test of COUNT: an equality made after the increment (43_bcd_counter.md R180; log 4). -/
def intervalReached (c : Config pw dw iw) (n : BitVec iw) : Bool := n.toNat == c.intervalThreshold

/-- SERVICE's enabling condition (44_service_and_sleep.md R200). -/
def serviceEnabled (s : State pw dw iw) : Bool := s.ready

/-- The Overrun mark is set (60_exceptions.md R222: a sticky ghost bit). -/
def overrunMark (s : State pw dw iw) : Bool := !s.overruns.isEmpty

end Machine
end Sys2Proof
end

