-- ==== Sys2Proof/Machine/Counter.lean ====
section
/-! DEFINITION. The interval counter and the decimal up-counter: COUNT and INCR (43_bcd_counter.md). -/

namespace Sys2Proof
namespace Machine

variable {pw dw iw : Nat}

/-- INCR (43_bcd_counter.md R182), every register write in order: a digit that reaches 10 holds it until its reset.
After the thousands digit wraps nothing else happens, unless OVERFLOW_SKIPS_ZERO (R183; log 6). -/
def incrWrites (c : Config pw dw iw) (x : Quad (BitVec dw)) : List (Write pw dw iw) :=
  .digit 0 (x.q0 + 1) ::
    if carryFrom (x.q0 + 1) then
      .digit 0 0 :: .digit 1 (x.q1 + 1) ::
        if carryFrom (x.q1 + 1) then
          .digit 1 0 :: .digit 2 (x.q2 + 1) ::
            if carryFrom (x.q2 + 1) then
              .digit 2 0 :: .digit 3 (x.q3 + 1) ::
                if carryFrom (x.q3 + 1) then
                  .digit 3 0 :: if c.overflowSkipsZero then [.digit 0 (0 + 1)] else []
                else []
            else []
        else []
    else []

/-- COUNT (43_bcd_counter.md R180): increment, compare, and at the threshold reset and INCR. -/
def countWrites (c : Config pw dw iw) (s : State pw dw iw) : List (Write pw dw iw) :=
  .interval (s.interval + 1) ::
    if intervalReached c (s.interval + 1) then .interval 0 :: incrWrites c s.digits else []

/-- INCR for any parameters. -/
def incr (c : Config pw dw iw) (s : State pw dw iw) : Result pw dw iw := .next (performAll s (incrWrites c s.digits))

/-- COUNT for any parameters. -/
def count (c : Config pw dw iw) (s : State pw dw iw) : Result pw dw iw := .next (performAll s (countWrites c s))

/-- INCR on the machine. -/
def execIncr (s : State) : Result := incr Config.machine s

/-- COUNT on the machine. -/
def execCount (s : State) : Result := count Config.machine s

end Machine
end Sys2Proof
end

