-- ==== Sys2Proof/WellFormed.lean ====
section
/-! DEFINITION. Which terms of `Instr` are operations of the block. -/

namespace Sys2Proof

/-- The reserved codes are 8 and above: the field `p[PHASE_WIDTH-1:3]` is not 0 (30_encoding.md R90, R93, 10_state.md R24).
With PHASE_WIDTH = 3 there is none. -/
def isReservedCode {pw : Nat} (p : BitVec pw) : Bool :=
  p >>> 3 != 0

/-- A term is an operation of the block when its operand is one the spec gives it.
OFF has the codes 8 to 255 (30_encoding.md R93). The operand of PACK is a common line by its type, and that of LUT any 4-bit value
(42_segment_lookup.md R170: a value above 9 is an operand too, on which LUT faults). -/
def Instr.wellFormed : Instr → Bool
  | .off code => isReservedCode code
  | .com0L | .com0H | .com1L | .com1H | .com2L | .com2H | .com3L | .com3H => true
  | .tick | .service | .sleep | .reset => true
  | .advance | .pack _ | .lut _ | .count | .incr => true

end Sys2Proof
end

