-- ==== Sys2Proof/Decode.lean ====
section
/-! DEFINITION. The decoder of phase codes, total on any bytes, and the encoder (30_encoding.md R90 to R94, R102). -/

namespace Sys2Proof

/-- Field `k` of a phase code, bits 2:1: the index of the selected common line (30_encoding.md R90). -/
def codeLine {pw : Nat} (p : BitVec pw) : Fin 4 :=
  (p.extractLsb' 1 2).toFin

/-- Field `h` of a phase code, bit 0: false LOW-assert, true HIGH-assert (30_encoding.md R90). -/
def codeHigh {pw : Nat} (p : BitVec pw) : Bool :=
  p.getLsbD 0

/-- The LOW-assert operation of common line k (30_encoding.md R91, rows with h = 0). -/
def lowInstr : Fin 4 → Instr
  | 0 => .com0L
  | 1 => .com1L
  | 2 => .com2L
  | 3 => .com3L

/-- The HIGH-assert operation of common line k (30_encoding.md R91, rows with h = 1). -/
def highInstr : Fin 4 → Instr
  | 0 => .com0H
  | 1 => .com1H
  | 2 => .com2H
  | 3 => .com3H

/-- The operation a phase code selects (30_encoding.md R91). Every one of the 256 codes selects exactly one (R92),
and the codes 8 to 255 all select OFF (R93). -/
def decodePhase (p : Byte) : Instr :=
  if isReservedCode p then .off p
  else if codeHigh p then highInstr (codeLine p)
  else lowInstr (codeLine p)

/-- Why the decoder reads no operation from a list of bytes. -/
inductive DecodeError where
  /-- There is no byte to read a phase code from (30_encoding.md R94: the length of the code is always one byte). -/
  | noCode
  deriving DecidableEq, Repr

/-- What the decoder answers: an operation with the bytes after its code, or a rejection by name. -/
inductive Decoded where
  | instr (i : Instr) (rest : List Byte)
  | rejected (e : DecodeError)
  deriving DecidableEq, Repr

/-- Reads one operation from the first byte: there is one code length (30_encoding.md R94) and decoding has no state (R92). -/
def decode : List Byte → Decoded
  | [] => .rejected .noCode
  | p :: rest => .instr (decodePhase p) rest

/-- The code `2k + h` of a drive operation (30_encoding.md R90: `p = 2·k + h`). -/
def driveCode (k : Fin 4) (h : Bool) : Byte :=
  BitVec.ofNat 8 (2 * k.val + h.toNat)

/-- The phase code of an operation (30_encoding.md R91, R93), none where the table's encoding is `none` (R102). -/
def phaseCode : Instr → Option Byte
  | .com0L => some (driveCode 0 false)
  | .com0H => some (driveCode 0 true)
  | .com1L => some (driveCode 1 false)
  | .com1H => some (driveCode 1 true)
  | .com2L => some (driveCode 2 false)
  | .com2H => some (driveCode 2 true)
  | .com3L => some (driveCode 3 false)
  | .com3H => some (driveCode 3 true)
  | .off code => some code
  | .tick | .service | .sleep | .reset => none
  | .advance | .pack _ | .lut _ | .count | .incr => none

/-- The words of an operation: its one code byte, or no word at all (30_encoding.md R94, R102). -/
def encode (i : Instr) : List Byte :=
  (phaseCode i).toList

/-- The bytes of a word of `nbits` bits, the least significant first (30_encoding.md R90: one byte). -/
def bytesOfWord (nbits w : Nat) : List Byte :=
  (List.range ((nbits + 7) / 8)).map fun n => BitVec.ofNat 8 (w / 256 ^ n)

/-- The operation the decoder reads from a word numbered as spec/opcode_table.json numbers it. The phase code is the first byte. -/
def decodeTableWord (nbits w : Nat) : Option Instr :=
  match decode (bytesOfWord nbits w) with
  | .instr i _ => some i
  | .rejected _ => none

end Sys2Proof
end

