-- ==== Sys2Proof/Machine/Operands.lean ====
section
/-! DEFINITION. The operand forms: the group of a pattern, the combined byte, the one-bit byte, and PACK. -/

namespace Sys2Proof
namespace Machine

variable {pw dw iw : Nat}

/-- `onehot(i)`, the 8-bit value `1 << i` (00_scope.md R13). -/
def onehot (i : Nat) : Byte := 1#8 <<< i

/-- The bit of the common port that drives common line k: `onehot(COM_BIT[k])` (10_state.md R33). -/
def lineBit (c : Config pw dw iw) (k : Fin 4) : Byte := onehot (c.comBit.get k)

/-- The group of common line k in a pattern: `(P >> GROUP_SHIFT[k]) & 0b11` (30_encoding.md R96), 2 bits in the low end of a byte. -/
def group (c : Config pw dw iw) (k : Fin 4) (pattern : Byte) : Byte :=
  (pattern >>> c.groupShift.get k) &&& 0b11

/-- One digit's contribution to the combined byte: its group in the digit's slot (30_encoding.md R97, R98). -/
def slot (c : Config pw dw iw) (k d : Fin 4) (pattern : Byte) : Byte :=
  group c k pattern <<< c.slotShift.get d

/-- PACKBYTE(k) from the four patterns: the OR of the four slots (30_encoding.md R98). -/
def packByte (c : Config pw dw iw) (k : Fin 4) (patterns : Quad Byte) : Byte :=
  slot c k 0 patterns.q0 ||| slot c k 1 patterns.q1 ||| slot c k 2 patterns.q2 ||| slot c k 3 patterns.q3

/-- The patterns of the four digits, looked up in the order units, tens, hundreds, thousands (41_refresh_state_machine.md R135).
All four are always read, and the first digit above 9 is the one the fault names (log 27). -/
def patterns (c : Config pw dw iw) (x : Quad (BitVec dw)) : Except Fault (Quad Byte) := do
  let p0 ← lookup c (some 0) x.q0.toNat
  let p1 ← lookup c (some 1) x.q1.toNat
  let p2 ← lookup c (some 2) x.q2.toNat
  let p3 ← lookup c (some 3) x.q3.toNat
  return ⟨p0, p1, p2, p3⟩

/-- PACK(k) (41_refresh_state_machine.md R135). -/
def packDigits (c : Config pw dw iw) (k : Fin 4) (x : Quad (BitVec dw)) : Except Fault Byte := do
  let ps ← patterns c x
  return packByte c k ps

/-- The byte a HIGH-assert phase drives: the bit-inverse of the latched byte (30_encoding.md R99). -/
def inverted (b : Byte) : Byte := ~~~b

end Machine
end Sys2Proof
end

