-- ==== Sys2Proof/Machine/Segment.lean ====
section
/-! DEFINITION. The segment lookup table: LUT (42_segment_lookup.md). -/

namespace Sys2Proof
namespace Machine

variable {pw dw iw : Nat}

/-- An operation whose only effect is the byte it returns to its caller, performed alone: the byte is kept in `returned` (log 20). -/
def returnByte (b : Except Fault Byte) (s : State pw dw iw) : Result pw dw iw :=
  match b with
  | .ok v => .next { s with returned := some v }
  | .error e => .fault e

/-- LUT(v) (42_segment_lookup.md R170, R172). -/
def lut (c : Config pw dw iw) (v : Digit) (s : State pw dw iw) : Result pw dw iw :=
  returnByte (lookup c none v.toNat) s

/-- LUT on the machine. -/
def execLut (v : Digit) (s : State) : Result := lut Config.machine v s

end Machine
end Sys2Proof
end

