-- ==== Sys2Proof/Machine/Refresh.lean ====
section
/-! DEFINITION. The refresh state machine: ADVANCE, EMIT, PACK, LOW(k), HIGH(k), the eight drive operations and OFF
(41_refresh_state_machine.md). Each is the list of its register writes in the order of its rule. -/

namespace Sys2Proof
namespace Machine

variable {pw dw iw : Nat}

/-! The sequencer. -/

/-- The successor of a phase (41_refresh_state_machine.md R130); a value above 7 goes to 0 (log 3). -/
def nextPhase (p : BitVec pw) : BitVec pw :=
  if 7 ≤ p.toNat then 0 else p + 1

/-- ADVANCE (R130). -/
def advanceWrites (s : State pw dw iw) : List (Write pw dw iw) :=
  [.phase (nextPhase s.phase)]

/-! The two templates and the fallback. -/

/-- LOW(k) (R140), in its write order (log 10, 13). -/
def lowWrites (c : Config pw dw iw) (k : Fin 4) (s : State pw dw iw) : Except Fault (List (Write pw dw iw)) := do
  let b ← packDigits c k s.digits
  return [.segByte b, .segOut b, .segDir 0xFF, .comDir 0x00, .comOut 0x00, .comDir (lineBit c k)]

/-- HIGH(k) (R141), in its write order (log 10, 13). -/
def highWrites (c : Config pw dw iw) (k : Fin 4) (s : State pw dw iw) : List (Write pw dw iw) :=
  [.comOut (lineBit c k), .comDir (lineBit c k), .segOut (inverted s.segByte), .segDir 0xFF]

/-- OFF (R150; log 13). -/
def offWrites : List (Write pw dw iw) :=
  [.segDir 0x00, .comDir 0x00]

/-- EMIT(p): dispatch on the phase code (R132). -/
def emitWrites (c : Config pw dw iw) {qw : Nat} (p : BitVec qw) (s : State pw dw iw) : Except Fault (List (Write pw dw iw)) :=
  if isReservedCode p then .ok offWrites
  else if codeHigh p then .ok (highWrites c (codeLine p) s)
  else lowWrites c (codeLine p) s

/-! The operations, for any parameters. -/

/-- ADVANCE (R130). It depends on no parameter. -/
def advance (s : State pw dw iw) : Result pw dw iw := .next (performAll s (advanceWrites s))

/-- PACK(k) performed alone (R135). -/
def pack (c : Config pw dw iw) (k : Fin 4) (s : State pw dw iw) : Result pw dw iw := returnByte (packDigits c k s.digits) s

/-- LOW(k) (R140). -/
def low (c : Config pw dw iw) (k : Fin 4) (s : State pw dw iw) : Result pw dw iw := commit (lowWrites c k s) s

/-- HIGH(k) (R141). -/
def high (c : Config pw dw iw) (k : Fin 4) (s : State pw dw iw) : Result pw dw iw := .next (performAll s (highWrites c k s))

/-- OFF (R150). -/
def off (s : State pw dw iw) : Result pw dw iw := .next (performAll s offWrites)

/-! The operations on the machine. -/

/-- ADVANCE (R130). -/
def execAdvance (s : State) : Result := advance s

/-- PACK(k) (R135). -/
def execPack (k : Fin 4) (s : State) : Result := pack Config.machine k s

/-- COM0L: LOW(0) (R142). -/
def execCom0L (s : State) : Result := low Config.machine 0 s

/-- COM0H: HIGH(0) (R143). -/
def execCom0H (s : State) : Result := high Config.machine 0 s

/-- COM1L: LOW(1) (R144). -/
def execCom1L (s : State) : Result := low Config.machine 1 s

/-- COM1H: HIGH(1), with its direction writes (R145, R151). -/
def execCom1H (s : State) : Result := high Config.machine 1 s

/-- COM2L: LOW(2) (R146). -/
def execCom2L (s : State) : Result := low Config.machine 2 s

/-- COM2H: HIGH(2) (R147). -/
def execCom2H (s : State) : Result := high Config.machine 2 s

/-- COM3L: LOW(3) (R148). -/
def execCom3L (s : State) : Result := low Config.machine 3 s

/-- COM3H: HIGH(3) (R149). -/
def execCom3H (s : State) : Result := high Config.machine 3 s

/-- OFF (R150): the same for every code (30_encoding.md R93). -/
def execOff (_code : Byte) (s : State) : Result := off s

end Machine
end Sys2Proof
end

