-- ==== Sys2Proof/Machine/Tick.lean ====
section
/-! DEFINITION. The tick source: TICK (40_tick_source.md). -/

namespace Sys2Proof
namespace Machine

variable {pw dw iw : Nat}

/-- TICK (40_tick_source.md R120): the timer fires and its interrupt is taken. When the timer's event is already pending, this is the
handling of that event and no second firing (log 17). It depends on no parameter. -/
def tick (s : State pw dw iw) : Result pw dw iw :=
  .next (takeInterrupt (if s.timerEvent then s else fireTimer s))

/-- TICK on the machine. -/
def execTick (s : State) : Result := tick s

end Machine
end Sys2Proof
end

