-- ==== Sys2Proof/Machine/MainLoop.lean ====
section
/-! DEFINITION. The main loop and what stands around it: SERVICE, SLEEP, MAIN, RESET, and the choice of the agent that moves next
(44_service_and_sleep.md, 70_reset_and_hazards.md). -/

namespace Sys2Proof
namespace Machine

variable {pw dw iw : Nat}

/-! SERVICE. -/

/-- The writes of a SERVICE in order: ADVANCE, EMIT(pc) on the new phase, COUNT, READY <- 0 (44_service_and_sleep.md R200). -/
def serviceWrites (c : Config pw dw iw) (s : State pw dw iw) : Except Fault (List (Write pw dw iw)) := do
  let advanced := performAll s (advanceWrites s)
  let emitted ← emitWrites c advanced.phase advanced
  return advanceWrites s ++ emitted ++ countWrites c (performAll advanced emitted) ++ [.clearReady]

/-- SERVICE (44_service_and_sleep.md R200): enabled only when READY = 1; with READY = 0 it is not a step (R201). -/
def service (c : Config pw dw iw) (s : State pw dw iw) : Result pw dw iw :=
  if serviceEnabled s then commit (serviceWrites c s) s else .refused .serviceNotReady

/-- SERVICE on the machine. -/
def execService (s : State) : Result := service Config.machine s

/-! SLEEP. -/

/-- The accesses of SLEEP up to the halt (44_service_and_sleep.md R205). -/
def sleepEntry : List (Write pw dw iw) := [.sleepEn true, .enableInterrupts, .halt]

/-- The accesses of SLEEP after waking (R205). -/
def sleepExit : List (Write pw dw iw) := [.sleepEn false]

/-- SLEEP (44_service_and_sleep.md R205) as one event: the sequence up to the halt; when the processor halts, the access after waking
stays to be made, and when a tick is pending the halt ends at once and it is made here (R206; log 23). It depends on no parameter. -/
def sleep (s : State pw dw iw) : Result pw dw iw :=
  let asleep := performAll s sleepEntry
  if asleep.halted then .next { asleep with work := sleepExit ++ asleep.work }
  else .next (performAll asleep sleepExit)

/-- SLEEP on the machine. -/
def execSleep (s : State) : Result := sleep s

/-! RESET. -/

/-- RESET (70_reset_and_hazards.md R260): cold start, whatever the state before. What is still to be supplied from outside stays (log 30). -/
def resetAll (s : State pw dw iw) : Result pw dw iw :=
  .next { State.coldStart with schedule := s.schedule }

/-- RESET on the machine. -/
def execReset (s : State) : Result := resetAll s

/-! MAIN and the machine's own move. -/

/-- The accesses of one loop body: `if READY = 1 then SERVICE; SLEEP` (44_service_and_sleep.md R202). -/
def loopBody (c : Config pw dw iw) (s : State pw dw iw) : Except Fault (List (Write pw dw iw)) := do
  let serviced ← if serviceEnabled s then serviceWrites c s else .ok []
  return serviced ++ sleepEntry ++ sleepExit

/-- The interrupt is taken: the timer's event is pending and interrupts are enabled (60_exceptions.md R226). -/
def interruptTaken (s : State pw dw iw) : Bool := s.timerEvent && s.gie

/-- Is the main loop inside a loop body: running, with accesses still to be made. -/
def midBody (s : State pw dw iw) : Bool := !s.halted && !s.work.isEmpty

/-- Must an event of the main loop wait: for the interrupt, or for the loop body in progress (00_scope.md R10: one thread; log 29). -/
def mainLoopWaits (s : State pw dw iw) : Bool := interruptTaken s || midBody s

/-- The machine's own move, when no event is supplied (log 22): take the pending interrupt; else, halted, the timer fires
(60_exceptions.md R248: nothing else wakes the processor); else the main loop makes its next access, or begins the next loop body. -/
def ownMove (c : Config pw dw iw) (s : State pw dw iw) : Result pw dw iw :=
  if interruptTaken s then tick s
  else if s.halted then .next (fireTimer s)
  else match s.work with
    | w :: ws => .next (performWrite { s with work := ws } w)
    | [] => match loopBody c s with
      | .ok ws => .next { s with work := ws }
      | .error e => .fault e

/-- What a step does. -/
inductive Move where
  /-- An operation, on the state without the event that asked for it. -/
  | operation (i : Instr) (s : State)
  /-- The timer's hardware event, not yet taken. -/
  | firing (s : State)
  /-- The machine's own move. -/
  | own (s : State)
  deriving DecidableEq, Repr

/-- The next move. An event supplied from outside comes first; SERVICE and SLEEP are the main loop's and wait for a pending
interrupt and for the loop body in progress (log 29); `EMIT p` is the operation its phase code decodes to (30_encoding.md R108, 41_refresh_state_machine.md R132). -/
def nextMove (s : State) : Move :=
  match s.schedule with
  | [] => .own s
  | .tick :: rest => .operation .tick { s with schedule := rest }
  | .reset :: rest => .operation .reset { s with schedule := rest }
  | .emit p :: rest => .operation (decodePhase p) { s with schedule := rest }
  | .timerFires :: rest => .firing { s with schedule := rest }
  | .own :: rest => .own { s with schedule := rest }
  | .service :: rest => if mainLoopWaits s then .own s else .operation .service { s with schedule := rest }
  | .sleep :: rest => if mainLoopWaits s then .own s else .operation .sleep { s with schedule := rest }

/-- `s` with the phase code of a table word supplied as the next event (log 21). -/
def supplyWord (s : State) (nbits w : Nat) : State :=
  match bytesOfWord nbits w with
  | [] => s
  | p :: _ => { s with schedule := .emit p :: s.schedule }

end Machine
end Sys2Proof
end

