-- ==== Sys2Proof/Machine/Dispatch.lean ====
section
/-! DEFINITION. The meaning of each operation: one arm per constructor of `Instr`. -/

namespace Sys2Proof
namespace Machine

/-- The effect of one operation on the state (spec/opcode_table.json; rules in the meanings' docstrings). -/
def exec (i : Instr) (s : State) : Host.Outcome State Fault Refusal :=
  match i with
  | .com0L => Sys2Proof.Machine.execCom0L s
  | .com0H => Sys2Proof.Machine.execCom0H s
  | .com1L => Sys2Proof.Machine.execCom1L s
  | .com1H => Sys2Proof.Machine.execCom1H s
  | .com2L => Sys2Proof.Machine.execCom2L s
  | .com2H => Sys2Proof.Machine.execCom2H s
  | .com3L => Sys2Proof.Machine.execCom3L s
  | .com3H => Sys2Proof.Machine.execCom3H s
  | .off code => Sys2Proof.Machine.execOff code s
  | .tick => Sys2Proof.Machine.execTick s
  | .service => Sys2Proof.Machine.execService s
  | .sleep => Sys2Proof.Machine.execSleep s
  | .reset => Sys2Proof.Machine.execReset s
  | .advance => Sys2Proof.Machine.execAdvance s
  | .pack k => Sys2Proof.Machine.execPack k s
  | .lut v => Sys2Proof.Machine.execLut v s
  | .count => Sys2Proof.Machine.execCount s
  | .incr => Sys2Proof.Machine.execIncr s

end Machine
end Sys2Proof
end

