-- ==== Sys2Proof/Machine/Step.lean ====
section
/-! DEFINITION. One step of the machine: one supplied event, or one move of the machine's own. -/

namespace Sys2Proof
namespace Machine

/-- One step. -/
def step (s : State) : Host.Outcome State Fault Refusal :=
  match nextMove s with
  | .operation i t => exec i t
  | .firing t => .next (fireTimer t)
  | .own t => ownMove Config.machine t

/-- `s` with a table word's phase code supplied as the next event, so that the next step performs its operation (log 21). -/
def State.withFetchWord (s : State) (nbits w : Nat) : State := supplyWord s nbits w

end Machine
end Sys2Proof
end

