-- ==== Sys2Proof/Machine/Pins.lean ====
section
/-! DEFINITION. What the block shows: the twelve pin levels (10_state.md R35), and the drive of the cells
(41_refresh_state_machine.md R160). -/

namespace Sys2Proof
namespace Machine

variable {pw dw iw : Nat}

/-- The level of a line: driven low, driven high, or floated (00_scope.md R15). -/
inductive Level where
  | L
  | H
  | Z
  deriving DecidableEq, Repr

/-- The level of line i of a port (00_scope.md R15; log 12). -/
def pinLevel (dir out : Byte) (i : Nat) : Level :=
  if dir.getLsbD i then (if out.getLsbD i then .H else .L) else .Z

/-- SEGPIN[n] (10_state.md R35). -/
def segPin (s : State pw dw iw) (n : Fin 8) : Level := pinLevel s.segDir s.segOut n

/-- COMPIN[k] (10_state.md R35): the level of bit COM_BIT[k]. -/
def comPin (c : Config pw dw iw) (s : State pw dw iw) (k : Fin 4) : Level := pinLevel s.comDir s.comOut (c.comBit.get k)

/-- A line that is driven to a bit (00_scope.md R15: 1 is H, 0 is L). -/
def driven (b : Bool) : Level := if b then .H else .L

/-- The twelve pins of two states agree: they are indistinguishable at the display (10_state.md R35). -/
def samePins (c : Config pw dw iw) (s t : State pw dw iw) : Prop :=
  (∀ n, segPin s n = segPin t n) ∧ ∀ k, comPin c s k = comPin c t k

/-- Every line floats: the display is fully off. -/
def allFloat (c : Config pw dw iw) (s : State pw dw iw) : Prop :=
  (∀ n, segPin s n = .Z) ∧ ∀ k, comPin c s k = .Z

/-- No two common lines are driven. -/
def atMostOneLineDriven (c : Config pw dw iw) (s : State pw dw iw) : Prop :=
  ∀ j k, comPin c s j ≠ .Z → comPin c s k ≠ .Z → j = k

/-- The number of a level in units of half the supply, a floated line resting at FLOAT_LEVEL (41_refresh_state_machine.md R160; log 15). -/
def levelValue (c : Config pw dw iw) : Level → Int
  | .L => 0
  | .H => 2
  | .Z => c.floatLevel

/-- The drive u(k, n) of the cell between common line k and segment line n (41_refresh_state_machine.md R160). -/
def cellDrive (c : Config pw dw iw) (s : State pw dw iw) (k : Fin 4) (n : Fin 8) : Int :=
  levelValue c (segPin s n) - levelValue c (comPin c s k)

/-- The two power states (60_exceptions.md R248). -/
inductive PowerState where
  | running
  | sleeping
  deriving DecidableEq, Repr

/-- The power state the machine is in. -/
def powerState (s : State pw dw iw) : PowerState := if s.halted then .sleeping else .running

end Machine
end Sys2Proof
end

