-- ==== Sys2Proof/Machine/Trace.lean ====
section
/-! DEFINITION. Consumed ticks (30_encoding.md R108), and the meaning of every operation for any parameters (00_scope.md R7, R8). -/

namespace Sys2Proof
namespace Machine

variable {pw dw iw : Nat}

/-- The effect of one operation on the machine with parameters `c`. With the defaults it is `exec`. -/
def execWith (c : Config pw dw iw) (i : Instr) (s : State pw dw iw) : Result pw dw iw :=
  match i with
  | .com0L => low c 0 s
  | .com0H => high c 0 s
  | .com1L => low c 1 s
  | .com1H => high c 1 s
  | .com2L => low c 2 s
  | .com2H => high c 2 s
  | .com3L => low c 3 s
  | .com3H => high c 3 s
  | .off _ => off s
  | .tick => tick s
  | .service => service c s
  | .sleep => sleep s
  | .reset => resetAll s
  | .advance => advance s
  | .pack k => pack c k s
  | .lut v => lut c v s
  | .count => count c s
  | .incr => incr c s

/-- One consumed tick, `T`: TICK and the SERVICE that consumes it (30_encoding.md R108, 44_service_and_sleep.md R200). -/
def consumedTick (c : Config pw dw iw) (s : State pw dw iw) : Result pw dw iw :=
  andThen (tick s) (service c)

/-- `n*T`: n consumed ticks (30_encoding.md R108). -/
def consumedTicks (c : Config pw dw iw) : Nat → State pw dw iw → Result pw dw iw
  | 0, s => .next s
  | n + 1, s => andThen (consumedTick c s) (consumedTicks c n)

end Machine
end Sys2Proof
end

