-- ==== Sys2Proof/Machine/Program.lean ====
section
/-! DEFINITION. A run of a program of 30_encoding.md R108: a start state and the events of a trace, run in order to the last one. -/

namespace Sys2Proof
namespace Machine

/-- A SERVICE that is refused is not a step (60_exceptions.md R222, 44_service_and_sleep.md R201): the state stays as it was, and the trace
goes on with the next event (95_test_vectors.md P7; log 16). Any other outcome `r` of the step from `s` stands. -/
def skipRefused (s : State) (r : Result) : Result :=
  match r with
  | .next t => .next t
  | .fault e => .fault e
  | .refused e => if e = .serviceNotReady then .next { s with schedule := s.schedule.tail } else .refused e

/-- One step of a run of a program. -/
def traceStep (s : State) : Result := skipRefused s (step s)

/-- At most `n` steps of a run, which ends when no event is left. A fault ends it too: such a run has no further meaning (R222). -/
def runTrace : Nat → State → Result
  | 0, s => .next s
  | n + 1, s => if s.schedule.isEmpty then .next s else andThen (traceStep s) (runTrace n)

/-- Steps enough for the events: each is one, a SLEEP leaves one access for later, and an event of the main loop waits for
the accesses and the interrupt that are pending at the start. -/
def programSteps (start : State) (events : List Event) : Nat :=
  2 * events.length + start.work.length + 1

/-- The run of a program: its lines are expanded and its events run in order from the start state (30_encoding.md R108). -/
def runProgram (start : State) (items : List TraceItem) : Result :=
  runTrace (programSteps start (expandTrace items)) { start with schedule := expandTrace items }

end Machine
end Sys2Proof
end

