-- ==== Sys2Proof/Safety.lean ====
section
/-! DEFINITION. The terms in which claims speak of a run: the document's contract on the registers, what the ports drive,
who may write what, and the marks of a run. -/

namespace Sys2Proof
namespace Machine

variable {pw dw iw : Nat}

/-- The displayed number (10_state.md R21). -/
def number (x : Quad (BitVec dw)) : Nat :=
  1000 * x.q3.toNat + 100 * x.q2.toNat + 10 * x.q1.toNat + x.q0.toNat

/-- Every digit is a decimal digit (10_state.md R23). -/
abbrev digitsOk (x : Quad (BitVec dw)) : Prop :=
  x.q0.toNat ≤ 9 ∧ x.q1.toNat ≤ 9 ∧ x.q2.toNat ≤ 9 ∧ x.q3.toNat ≤ 9

/-- The ranges that hold between events (10_state.md R42, first half): PHASE in 0..7, every DIGIT in 0..9,
INTERVAL in 0..INTERVAL_THRESHOLD − 1. -/
abbrev Contract (c : Config pw dw iw) (s : State pw dw iw) : Prop :=
  s.phase.toNat ≤ 7 ∧ digitsOk s.digits ∧ s.interval.toNat < c.intervalThreshold

/-- What the ports hold once a SERVICE has run (10_state.md R42, second half; 41_refresh_state_machine.md R152). -/
abbrev Driven (c : Config pw dw iw) (s : State pw dw iw) : Prop :=
  s.segDir = 0xFF ∧
  s.comDir = lineBit c (codeLine s.phase) ∧
  s.comOut = (if codeHigh s.phase then lineBit c (codeLine s.phase) else 0x00) ∧
  s.segOut = (if codeHigh s.phase then inverted s.segByte else s.segByte)

/-- A halted processor has no tick waiting in READY (44_service_and_sleep.md R206). -/
abbrev NoLostWakeup (s : State pw dw iw) : Prop := s.halted = true → s.ready = false

/-- The state with the loop body in progress carried to its end. -/
def settled (s : State pw dw iw) : State pw dw iw := performAll s s.work

/-- The contract at every point of a loop body: it holds when the accesses still to be made have been made
(inside INCR a digit holds 10, 10_state.md R23), and no wake-up is lost. -/
abbrev Inv (c : Config pw dw iw) (s : State pw dw iw) : Prop :=
  NoLostWakeup s ∧ Contract c (settled s)

/-- The events of the hardware and of its harness that leave the ports as a run from cold start does: neither RESET nor the test
event EMIT (30_encoding.md R108). -/
def Event.drives : Event → Bool
  | .reset | .emit _ => false
  | .tick | .service | .sleep | .timerFires | .own => true

/-- The ports stay driven: the invariant of a run without RESET and EMIT, once a SERVICE has run. -/
abbrev DrivenInv (c : Config pw dw iw) (s : State pw dw iw) : Prop :=
  NoLostWakeup s ∧ s.schedule.all Event.drives = true ∧ Driven c (settled s)

/-- The processor rests in its sleep sequence, nothing is supplied and no tick is pending (44_service_and_sleep.md R205, 60_exceptions.md R248):
where the main loop waits between two ticks. -/
abbrev Asleep (s : State) : Prop :=
  s.schedule = [] ∧ s.halted = true ∧ s.work = sleepExit ∧ s.ready = false ∧ s.gie = true ∧ s.timerEvent = false

/-- The execution contexts, by what each may write (60_exceptions.md R240, 10_state.md R39). -/
inductive Context where
  | interrupt
  | mainLoop
  | powerOn
  deriving DecidableEq, Repr

/-- The context each operation runs in (00_scope.md R10). -/
def contextOf : Instr → Context
  | .tick => .interrupt
  | .reset => .powerOn
  | .com0L | .com0H | .com1L | .com1H | .com2L | .com2H | .com3L | .com3H | .off _ => .mainLoop
  | .service | .sleep | .advance | .pack _ | .lut _ | .count | .incr => .mainLoop

/-- The registers an operation may write: the columns of 10_state.md R39 and the rules of each operation. -/
def mayWrite : Instr → Reg → Bool
  | .com0L, r | .com1L, r | .com2L, r | .com3L, r => r ∈ [.segByte, .segDir, .segOut, .comDir, .comOut]
  | .com0H, r | .com1H, r | .com2H, r | .com3H, r => r ∈ [.segDir, .segOut, .comDir, .comOut]
  | .off _, r => r ∈ [.segDir, .comDir]
  | .tick, r => r == .ready
  | .service, _ => true
  | .sleep, _ => false
  | .reset, _ => true
  | .advance, r => r == .phase
  | .pack _, _ => false
  | .lut _, _ => false
  | .count, .digit _ => true
  | .count, r => r == .interval
  | .incr, .digit _ => true
  | .incr, _ => false

/-- The parts of the host's state an operation may change (44_service_and_sleep.md R205, 60_exceptions.md R235): only TICK, SLEEP and
RESET reach beyond the block. -/
def reachesHost : Instr → Bool
  | .tick | .sleep | .reset => true
  | _ => false

/-- The host's state and the ghost mark of two states agree. -/
def sameHost (s t : State pw dw iw) : Prop :=
  s.timerEvent = t.timerEvent ∧ s.gie = t.gie ∧ s.sleepEn = t.sleepEn ∧ s.halted = t.halted ∧ s.work = t.work ∧
    s.ticks = t.ticks ∧ s.overruns = t.overruns

/-- The twelve registers of two states agree (10_state.md R20). -/
def sameRegisters (s t : State pw dw iw) : Prop := ∀ r, readReg s r = readReg t r

end Machine
end Sys2Proof
end

