-- ==== Sys2Proof/Certificates/Slice0/Obligations.lean ====
section
/-! DEFINITION. The statements for the provers. Each docstring names the rule of spec/ it formalises, and says where it rests on a choice
of the spec (a decision D<n> of 92_eei_decisions.md) or of the model (a log entry). -/

open Sys2Proof Sys2Proof.Machine

/-! ## Encoding -/

/-- Some codes of 30_encoding.md R91, written out bit by bit, decode to their operations. -/
def Obligations.WrittenCodesDecode : Prop :=
  decodeTableWord 8 0b00000000 = some .com0L ∧ decodeTableWord 8 0b00000001 = some .com0H ∧
  decodeTableWord 8 0b00000011 = some .com1H ∧ decodeTableWord 8 0b00000100 = some .com2L ∧
  decodeTableWord 8 0b00000110 = some .com3L ∧ decodeTableWord 8 0b00001000 = some (.off 0b00001000) ∧
  decodeTableWord 8 0b11111111 = some (.off 0b11111111) ∧ decode [] = .rejected .noCode

/-- Decoding undoes encoding for every operation that has a code, OFF at every code 8..255, whatever bytes follow (30_encoding.md R90 to R94). -/
def Obligations.DecodeInvertsEncode : Prop :=
  ∀ i : Instr, i.wellFormed = true → i.format = .phase8 → ∀ rest, decode (encode i ++ rest) = .instr i rest

/-- 30_encoding.md R92: each of the 256 codes selects exactly one operation, by the code alone: no other operation has the code, whatever
bytes follow, and the dispatch inside a SERVICE performs that operation in every state, for any parameters. -/
def Obligations.EveryCodeSelectsOneOperation : Prop :=
  ∀ p : Byte, ∃ i : Instr, i.wellFormed = true ∧ encode i = [p] ∧
    (∀ j : Instr, j.wellFormed = true → encode j = [p] → j = i) ∧
    (∀ rest, decode (p :: rest) = .instr i rest) ∧
    ∀ {pw dw iw : Nat} (c : Config pw dw iw) (s : State pw dw iw), commit (emitWrites c p s) s = execWith c i s

/-- 30_encoding.md R90, R91, R93 (8-bit width: D1, log 1): the fields of a legal code are quotient and remainder by 2, and every other code
is OFF. -/
def Obligations.PhaseCodeFields : Prop :=
  ∀ p : Byte,
    (p.toNat ≤ 7 → (codeLine p).val = p.toNat / 2 ∧ (codeHigh p = true ↔ p.toNat % 2 = 1) ∧
      decodePhase p = if p.toNat % 2 = 1 then highInstr (codeLine p) else lowInstr (codeLine p)) ∧
    (8 ≤ p.toNat → decodePhase p = .off p)

/-! ## The step -/

/-- A step runs the operation supplied to it (30_encoding.md R108, log 21, 29): the operation a phase code decodes to, TICK and RESET at
once, SERVICE and SLEEP when the main loop does not have to finish something first. -/
def Obligations.StepRunsTheSuppliedOperation : Prop :=
  (∀ (s : State) (nbits w : Nat) (i : Instr), decodeTableWord nbits w = some i → step (s.withFetchWord nbits w) = exec i s) ∧
  ∀ (s : State) (e : Event) (rest : List Event), s.schedule = e :: rest →
    (∀ p, e = .emit p → decode [p] = .instr (decodePhase p) [] ∧ step s = exec (decodePhase p) { s with schedule := rest }) ∧
    (e = .tick → step s = exec .tick { s with schedule := rest }) ∧
    (e = .reset → step s = exec .reset { s with schedule := rest }) ∧
    (e = .service → mainLoopWaits s = false → step s = exec .service { s with schedule := rest }) ∧
    (e = .sleep → mainLoopWaits s = false → step s = exec .sleep { s with schedule := rest })

/-- The model's choice (log 22, 29): with nothing supplied, when asked to, or when an event of the main loop has to wait, the step is the
machine's own move; a supplied firing of the timer is only that. -/
def Obligations.StepMovesOnItsOwn : Prop :=
  (∀ s : State, s.schedule = [] → step s = ownMove Config.machine s) ∧
  ∀ (s : State) (e : Event) (rest : List Event), s.schedule = e :: rest →
    (e = .own → step s = ownMove Config.machine { s with schedule := rest }) ∧
    (e = .timerFires → step s = .next (fireTimer { s with schedule := rest })) ∧
    ((e = .service ∨ e = .sleep) → mainLoopWaits s = true → step s = ownMove Config.machine s)

/-! ## The tick and its interrupt -/

/-- 40_tick_source.md R120: TICK completes in every state, sets READY, acknowledges the timer, writes no other register and moves no pin,
and sets the mark Overrun exactly when READY was already 1. -/
def Obligations.TickSetsReadyOnly : Prop :=
  ∀ s : State, ∃ t, exec .tick s = .next t ∧ t.ready = true ∧ t.timerEvent = false ∧
    (∀ r, r ≠ .ready → readReg t r = readReg s r) ∧ (∀ c, samePins c s t) ∧
    (s.ready = false → t.overruns = s.overruns) ∧ (s.ready = true → overrunMark t = true)

/-- 60_exceptions.md R235, R236: when the interrupt is taken the processor leaves its halt or the main loop is suspended between two accesses,
and the effect on the block is exactly READY <- 1; the main loop's place is as before. That the host's enables are as before is the
model's choice (log 31). -/
def Obligations.InterruptEffectIsReady : Prop :=
  ∀ s : State, s.schedule = [] → interruptTaken s = true →
    ∃ t, step s = .next t ∧ t.ready = true ∧ (∀ r, r ≠ .ready → readReg t r = readReg s r) ∧
      t.halted = false ∧ t.timerEvent = false ∧ t.work = s.work ∧ t.gie = s.gie ∧ t.sleepEn = s.sleepEn

/-- The model's choice after 60_exceptions.md R226 (log 17, 23): a firing of the timer only waits, in every state: its event is pending, to be taken
when interrupts are enabled, and nothing else has changed. Over an event that is still pending, the earlier tick is lost and marked
with its number. -/
def Obligations.MaskedTickWaits : Prop :=
  ∀ (s : State) rest, s.schedule = .timerFires :: rest →
    ∃ t, step s = .next t ∧ sameRegisters s t ∧ t.timerEvent = true ∧ t.ticks = s.ticks + 1 ∧ t.schedule = rest ∧
      t.gie = s.gie ∧ t.sleepEn = s.sleepEn ∧ t.halted = s.halted ∧ t.work = s.work ∧ t.returned = s.returned ∧
      (s.timerEvent = false → t.overruns = s.overruns) ∧ (s.timerEvent = true → t.overruns = s.overruns ++ [s.ticks]) ∧
      interruptTaken t = s.gie ∧ interruptTaken (performWrite t .enableInterrupts) = true

/-- 60_exceptions.md R236: after a halt the main loop goes on at the access after the halt, which clears SLEEP_EN, and then tests READY:
the next loop body begins with a SERVICE. -/
def Obligations.WakingClearsSleepEnable : Prop :=
  ∀ s t u : State, s.work = [] → s.schedule = [] → exec .sleep s = .next t → t.halted = true → exec .tick t = .next u →
    step u = .next { u with sleepEn := false, work := [] } ∧
    ∀ ws, serviceWrites Config.machine u = .ok ws →
      step { u with sleepEn := false, work := [] } = .next { u with sleepEn := false, work := ws ++ sleepEntry ++ sleepExit }

/-- 40_tick_source.md R124, 60_exceptions.md R231 case (b) (D15, log 17): two ticks before a service leave the registers as one does; one is
lost, and marked. -/
def Obligations.CoalescedTicks : Prop :=
  ∀ s t : State, andThen (exec .tick s) (exec .service) = .next t →
    ∃ u, andThen (exec .tick s) (fun a => andThen (exec .tick a) (exec .service)) = .next u ∧
      sameRegisters t u ∧ overrunMark u = true ∧ u.ticks = t.ticks + 1

/-- 60_exceptions.md R230 case (c) (D15, D18, log 17, 19): a tick between the start of a service and its last write is wiped by that write:
the registers end as without it, READY is 0, and the mark is set. -/
def Obligations.TickInsideServiceIsLost : Prop :=
  ∀ s t : State, s.ready = true → .clearReady ∈ s.work → exec .tick s = .next t →
    sameRegisters (settled s) (settled t) ∧ (settled t).ready = false ∧ overrunMark t = true

/-- 60_exceptions.md R230 case (d), 44_service_and_sleep.md R206 (log 23): a tick after the service's last write and before the halt is not
lost: the loop body ends with the processor running and a SERVICE enabled. -/
def Obligations.TickBeforeTheHaltIsNotLost : Prop :=
  ∀ (s t : State) (n : Nat), n ≤ 2 → s.ready = false → s.halted = false → s.work = (sleepEntry ++ sleepExit).drop n →
    exec .tick s = .next t → (settled t).halted = false ∧ serviceEnabled (settled t) = true ∧ t.overruns = s.overruns

/-! ## The service loop -/

/-- 44_service_and_sleep.md R200: a SERVICE with READY = 1 is ADVANCE, the operation of the new phase, COUNT and the clear of READY, in that
order; with READY = 0 it is not enabled: it is no step. -/
def Obligations.ServiceIsItsSubstepsInOrder : Prop :=
  (∀ s : State, s.ready = true → exec .service s =
    andThen (exec .advance s) fun a => andThen (exec (decodePhase a.phase) a) fun e => andThen (exec .count e) fun n =>
      .next { n with ready := false }) ∧
  ∀ s t : State, s.ready = false → exec .service s ≠ .next t

/-- 44_service_and_sleep.md R201, 60_exceptions.md R222: a SERVICE with READY = 0 is refused by its name (D23, log 16); and the example of R200
from cold start, whose port values are choices (D5, D8, D9, D11, D12: log 7, 8, 9, 10, 13). -/
def Obligations.ServiceRefusalAndExample : Prop :=
  (∀ s : State, s.ready = false → exec .service s = .refused .serviceNotReady) ∧
  andThen (exec .tick State.reset) (exec .service) = .next { State.reset with
    phase := 0, segByte := 0x55, segOut := 0x55, segDir := 0xFF, comDir := 0x01, comOut := 0x00, interval := 1, ticks := 1 }

/-- 44_service_and_sleep.md R200 with 41_refresh_state_machine.md R135, R136: a SERVICE with READY = 1 completes when the new phase is odd
or every digit is decimal, and then the phase, READY and INTERVAL are as their rules say (D2, D4: log 3, 4), the digits are as they were
off the threshold, and the host's state is as it was. -/
def Obligations.ServiceCompletes : Prop :=
  ∀ s : State, s.ready = true → (codeHigh (nextPhase s.phase) = true ∨ digitsOk s.digits) →
    ∃ t, exec .service s = .next t ∧ t.phase = nextPhase s.phase ∧ t.ready = false ∧
      t.interval = (if s.interval + 1 = 100 then 0 else s.interval + 1) ∧ (s.interval + 1 ≠ 100 → t.digits = s.digits) ∧
      sameHost s t ∧ t.schedule = s.schedule ∧ t.returned = s.returned

/-- 42_segment_lookup.md R172, 60_exceptions.md R222 (D16, log 27): where a digit exceeds 9, PACK, the LOW-assert operations and a SERVICE of
an even phase fault LutDomain with the lowest such position and its value. -/
def Obligations.LookupFaultNamesTheDigit : Prop :=
  ∀ (s : State) (d : Fin 4), 9 < (s.digits.get d).toNat → (∀ e, e < d → (s.digits.get e).toNat ≤ 9) →
    (∀ k, exec (.pack k) s = .fault (.lutDomain (some d) (s.digits.get d).toNat) ∧
      exec (lowInstr k) s = .fault (.lutDomain (some d) (s.digits.get d).toNat)) ∧
    (s.ready = true → codeHigh (nextPhase s.phase) = false → exec .service s = .fault (.lutDomain (some d) (s.digits.get d).toNat))

/-- 44_service_and_sleep.md R205: SLEEP completes in every state with every register and pin of the block as it was and interrupts enabled;
with no tick pending the sleep mode is enabled, the processor is halted, the access after waking is still to be made, and nothing else
has changed; while it is halted no move of the machine is one of the main loop, and it stays halted until the interrupt is taken. -/
def Obligations.SleepKeepsTheBlock : Prop :=
  (∀ s : State, ∃ t, exec .sleep s = .next t ∧ sameRegisters s t ∧ (∀ c, samePins c s t) ∧ t.gie = true) ∧
  (∀ s : State, s.ready = false → exec .sleep s =
    .next { s with gie := true, sleepEn := true, halted := true, work := .sleepEn false :: s.work }) ∧
  ∀ t u : State, t.halted = true → t.schedule = [] → step t = .next u →
    u.work = t.work ∧ (∀ r, r ≠ .ready → readReg u r = readReg t r) ∧ (∀ c, samePins c t u) ∧
    (interruptTaken t = false → u.halted = true ∧ u.ready = t.ready)

/-- The model's choice after 44_service_and_sleep.md R206 (log 23): SLEEP with a tick pending is over at once, and only the host's enables
have changed. -/
def Obligations.SleepEndsAtOnceOnAPendingTick : Prop :=
  ∀ s : State, s.ready = true → exec .sleep s = .next { s with gie := true, sleepEn := false, halted := false }

/-- 60_exceptions.md R248, 44_service_and_sleep.md R207: a halted machine always has a move, which keeps every register but READY and every
pin, and only the tick interrupt wakes it. -/
def Obligations.OnlyTheTickWakes : Prop :=
  ∀ s : State, s.halted = true → s.schedule = [] →
    ∃ t, step s = .next t ∧ (∀ r, r ≠ .ready → readReg t r = readReg s r) ∧ (∀ c, samePins c s t) ∧
      (powerState t = .running → interruptTaken s = true ∧ t.ready = true)

/-- 44_service_and_sleep.md R206 (log 23): no step leads to a halted processor with READY = 1. -/
def Obligations.NoWakeupIsLost : Prop :=
  ∀ s t : State, NoLostWakeup s → step s = .next t → NoLostWakeup t

/-! ## Reset -/

/-- 70_reset_and_hazards.md R260, 10_state.md R40: RESET gives cold start from any state. PHASE and the digits are the document's values; the
others are the spec's decision D5 (log 7); the host's state and the marks are the model's choice (log 17, 18, 30). -/
def Obligations.ResetGivesColdStart : Prop :=
  ∀ s : State, ∃ t, exec .reset s = .next t ∧ t = { State.reset with schedule := s.schedule } ∧
    t.phase = 7 ∧ t.digits = ⟨0, 0, 0, 0⟩ ∧ t.ready = false ∧ t.interval = 0 ∧ t.segByte = 0x00 ∧
    t.segDir = 0x00 ∧ t.segOut = 0x00 ∧ t.comDir = 0x00 ∧ t.comOut = 0x00 ∧ ∀ c, allFloat c t

/-! ## The sequencer -/

/-- 41_refresh_state_machine.md R130 (above 7 the spec's decision D2, log 3): ADVANCE completes in every state and writes the successor. -/
def Obligations.AdvanceStepsThePhase : Prop :=
  ∀ s : State, (s.phase.toNat < 7 → exec .advance s = .next { s with phase := s.phase + 1 }) ∧
    (7 ≤ s.phase.toNat → exec .advance s = .next { s with phase := 0 })

/-- 10_state.md R25: PHASE is written by RESET (7) and by ADVANCE (the successor), alone or in a SERVICE, and by nothing else, and nothing
else reads it: every other operation does the same whatever PHASE holds. -/
def Obligations.PhaseIsWrittenByAdvanceAndReset : Prop :=
  (∀ (i : Instr) (s t : State), exec i s = .next t →
    (i = .reset → t.phase = 7) ∧ (i = .advance ∨ i = .service → t.phase = nextPhase s.phase) ∧
    (i ≠ .reset → i ≠ .advance → i ≠ .service → t.phase = s.phase)) ∧
  (∀ (i : Instr) (s : State) (q : Byte), i ≠ .reset → i ≠ .advance → i ≠ .service →
    exec i { s with phase := q } = andThen (exec i s) fun t => .next { t with phase := q }) ∧
  (∀ p : Byte, p.toNat < 7 → (nextPhase p).toNat = p.toNat + 1) ∧ nextPhase (7 : Byte) = 0

/-- 10_state.md R26: the phase stays in 0..7 under every operation, and the eight services of a frame visit the phases 0 to 7 in order, each
common line LOW-assert and then HIGH-assert, for any admissible parameters. -/
def Obligations.FrameVisitsEveryPhaseInOrder : Prop :=
  (∀ {pw dw iw : Nat} (c : Config pw dw iw) (i : Instr) (s t : State pw dw iw), s.phase.toNat ≤ 7 → execWith c i s = .next t → t.phase.toNat ≤ 7) ∧
  ∀ {pw dw iw : Nat} (c : Config pw dw iw) (t : Nat → State pw dw iw), c.Admissible = true → (t 0).phase = 7 →
    (∀ n < 8, consumedTick c (t n) = .next (t (n + 1))) → ∀ n < 8, (t (n + 1)).phase.toNat = n ∧ (codeLine (t (n + 1)).phase).val = n / 2 ∧
      (codeHigh (t (n + 1)).phase = true ↔ n % 2 = 1)

/-! ## The lookup table and the router -/

/-- 42_segment_lookup.md R170: LUT answers the table's entry for a decimal digit and faults above 9, whatever the table; the machine's LUT
is that of its table, with the two printed entries. -/
def Obligations.LookupReadsTheTable : Prop :=
  ∀ (v : Digit) (s : State),
    (v.toNat ≤ 9 → ∀ {pw dw iw : Nat} (c : Config pw dw iw) (s : State pw dw iw),
      ∃ b, c.segLut[v.toNat]? = some b ∧ lut c v s = .next { s with returned := some b }) ∧
    (v.toNat ≤ 9 → ∃ b, Config.machine.segLut[v.toNat]? = some b ∧ exec (.lut v) s = .next { s with returned := some b }) ∧
    (9 < v.toNat → exec (.lut v) s = .fault (.lutDomain none v.toNat)) ∧
    exec (.lut 0) s = .next { s with returned := some 0xED } ∧ exec (.lut 8) s = .next { s with returned := some 0xFD }

/-- 30_encoding.md R98, for every admissible wiring (default wiring: D8, D9, log 8, 9): bit SLOT_SHIFT[d] + j of the combined byte of line k is
bit GROUP_SHIFT[k] + j of the pattern of digit d. -/
def Obligations.RouterMovesEveryBit : Prop :=
  ∀ {pw dw iw : Nat} (c : Config pw dw iw) (k d : Fin 4) (ps : Quad Byte) (j : Nat), c.Admissible = true → j < 2 →
    (packByte c k ps).getLsbD (c.slotShift.get d + j) = (ps.get d).getLsbD (c.groupShift.get k + j)

/-- 41_refresh_state_machine.md R135 (default wiring and table: D8, D9, D10, log 8, 9, 11): PACK(k) completes for decimal digits and returns
the byte whose bit 2d + j is bit 2k + j of the table's entry for digit d, and writes no register. -/
def Obligations.PackReturnsTheRoutedByte : Prop :=
  ∀ (k : Fin 4) (s : State), digitsOk s.digits →
    ∃ b, exec (.pack k) s = .next { s with returned := some b } ∧
      ∀ (d : Fin 4) (j : Nat), j < 2 → ∃ p, Config.machine.segLut[(s.digits.get d).toNat]? = some p ∧
        b.getLsbD (2 * d.val + j) = p.getLsbD (2 * k.val + j)

/-! ## The drive operations -/

/-- 41_refresh_state_machine.md R140, R142, R144, R146, R148 (D11, D12, log 10, 13): COM0L, COM1L, COM2L and COM3L complete for decimal digits;
the byte PACK(k) returns goes to SEGBYTE and SEG_OUT, the segment lines are driven, only line k is, and low; nothing else changes. -/
def Obligations.LowAssertEndState : Prop :=
  ∀ (k : Fin 4) (s : State), digitsOk s.digits →
    ∃ b, exec (.pack k) s = .next { s with returned := some b } ∧
      exec (lowInstr k) s = .next
        { s with segByte := b, segOut := b, segDir := 0xFF, comDir := BitVec.ofNat 8 (2 ^ k.val), comOut := 0x00 }

/-- 41_refresh_state_machine.md R141, R143, R145, R147, R149, R151 (D11, D12, log 10, 13): COM0H, COM1H, COM2H and COM3H complete in every
state; the inverse of SEGBYTE goes to SEG_OUT, the segment lines are driven, only line k is, and high; nothing else changes. -/
def Obligations.HighAssertEndState : Prop :=
  ∀ (k : Fin 4) (s : State), exec (highInstr k) s = .next
    { s with segOut := ~~~s.segByte, segDir := 0xFF, comDir := BitVec.ofNat 8 (2 ^ k.val), comOut := BitVec.ofNat 8 (2 ^ k.val) }

/-- 41_refresh_state_machine.md R140, R141, R162, 10_state.md R35 (port polarity D6, D7, log 12), for every admissible wiring and any table: the
pins after LOW(k) and HIGH(k): the segment lines show SEGBYTE against line k low, and its inverse against line k high, the other lines float. -/
def Obligations.DrivePins : Prop :=
  ∀ {pw dw iw : Nat} (c : Config pw dw iw) (k : Fin 4) (s t : State pw dw iw), c.Admissible = true →
    (low c k s = .next t → (∀ n : Fin 8, segPin t n = driven (t.segByte.getLsbD n)) ∧
      ∀ j, comPin c t j = if j = k then .L else .Z) ∧
    (high c k s = .next t → (∀ n : Fin 8, segPin t n = driven (!s.segByte.getLsbD n)) ∧
      ∀ j, comPin c t j = if j = k then .H else .Z)

/-- 41_refresh_state_machine.md R150, 30_encoding.md R93 (D13, log 13): OFF completes in every state, for every code, floats all twelve lines
and writes the direction registers only. -/
def Obligations.OffFloatsEveryLine : Prop :=
  ∀ (code : Byte) (s : State), ∃ t, exec (.off code) s = .next t ∧ t = { s with segDir := 0x00, comDir := 0x00 } ∧ ∀ c, allFloat c t

/-- 41_refresh_state_machine.md R136: on an odd phase neither the digits nor the ROM are read: HIGH(k) does the same whatever they hold; on an
even phase the byte is recomputed from the digits. -/
def Obligations.OddPhasesReadNoDigit : Prop :=
  (∀ (k : Fin 4) (s : State) (x : Quad Digit), exec (highInstr k) { s with digits := x } =
    andThen (exec (highInstr k) s) fun t => .next { t with digits := x }) ∧
  (∀ {pw dw iw : Nat} (c : Config pw dw iw) (table : Vector Byte 10) (k : Fin 4) (s : State pw dw iw), execWith { c with segLut := table } (highInstr k) s =
    execWith c (highInstr k) s) ∧
  ∀ (k : Fin 4) (s t : State), exec (lowInstr k) s = .next t → packDigits Config.machine k s.digits = .ok t.segByte

/-- 41_refresh_state_machine.md R155: performing the operation of a phase code twice leaves what performing it once leaves; the pins after it
depend on the digits alone on an even phase, on SEGBYTE alone on an odd one, and on nothing when the code is reserved. -/
def Obligations.EmitIsIdempotent : Prop :=
  ∀ (p : Byte) (s t : State), exec (decodePhase p) s = .next t →
    exec (decodePhase p) t = .next t ∧
    ∀ s' t' : State, exec (decodePhase p) s' = .next t' →
      (8 ≤ p.toNat ∨ (codeHigh p = false ∧ s'.digits = s.digits) ∨ (codeHigh p = true ∧ s'.segByte = s.segByte)) →
      samePins Config.machine t t'

/-- 10_state.md R42, 41_refresh_state_machine.md R152: every SERVICE that completes, from any state and for any parameters, leaves the ports
driven as its phase says. -/
def Obligations.ServiceDrivesThePorts : Prop :=
  ∀ {pw dw iw : Nat} (c : Config pw dw iw) (s t : State pw dw iw), service c s = .next t → Driven c t ∧ t.phase.toNat ≤ 7

/-- 10_state.md R30, 70_reset_and_hazards.md R274, for any parameters: a SERVICE of an even phase latches and drives PACK of the digits before
its COUNT; a SERVICE of an odd phase keeps the latch and drives its inverse. -/
def Obligations.OneComputationPerPair : Prop :=
  ∀ {pw dw iw : Nat} (c : Config pw dw iw) (s t : State pw dw iw), service c s = .next t →
    (codeHigh t.phase = false → packDigits c (codeLine t.phase) s.digits = .ok t.segByte ∧ t.segOut = t.segByte) ∧
    (codeHigh t.phase = true → t.segByte = s.segByte ∧ t.segOut = ~~~s.segByte)

/-! ## The waveform -/

/-- 41_refresh_state_machine.md R154: the segment output of a phase 2k + 1 is the bit-inverse of that of the phase 2k before it, on the same
common line, for any admissible parameters, from any state and whatever COUNT did to the digits. -/
def Obligations.AcBalance : Prop :=
  ∀ {pw dw iw : Nat} (c : Config pw dw iw) (s t u : State pw dw iw), c.Admissible = true → consumedTick c s = .next t → codeHigh t.phase = false → consumedTick c t = .next u →
    u.segOut = ~~~t.segOut ∧ codeLine u.phase = codeLine t.phase ∧ codeHigh u.phase = true

/-- 41_refresh_state_machine.md R157: after a SERVICE exactly one common line is driven, that of the phase, for every admissible wiring. -/
def Obligations.OneLineDrivenAfterEveryService : Prop :=
  ∀ {pw dw iw : Nat} (c : Config pw dw iw) (s t : State pw dw iw), c.Admissible = true → service c s = .next t →
    ∀ j, comPin c t j ≠ .Z ↔ j = codeLine t.phase

/-- 70_reset_and_hazards.md R273, 95_test_vectors.md section 4: not even between the writes of an operation are two common lines driven. -/
def Obligations.NeverTwoLinesDriven : Prop :=
  ∀ {pw dw iw : Nat} (c : Config pw dw iw) (p : Byte) (s : State pw dw iw) (ws : List (Write pw dw iw)) (n : Nat), c.Admissible = true → atMostOneLineDriven c s →
    emitWrites c p s = .ok ws → atMostOneLineDriven c (performAll s (ws.take n))

/-- 70_reset_and_hazards.md R273: the pin states inside LOW(k), from a state with another line high and from one with every line floated, and
inside HIGH(k) after LOW(k). The places of the direction writes are the spec's decision D11 (log 10). -/
def Obligations.PinStatesInsideAService : Prop :=
  (∀ {pw dw iw : Nat} (c : Config pw dw iw) (j k : Fin 4) (s : State pw dw iw) (b : Byte), c.Admissible = true → j ≠ k → packDigits c k s.digits = .ok b →
    s.segDir = 0xFF → s.comDir = lineBit c j → s.comOut = lineBit c j →
    ∃ ws, lowWrites c k s = .ok ws ∧
      (comPin c (performAll s (ws.take 2)) j = .H ∧ ∀ n : Fin 8, segPin (performAll s (ws.take 2)) n = driven (b.getLsbD n)) ∧
      ((∀ i, comPin c (performAll s (ws.take 4)) i = .Z) ∧
        ∀ n : Fin 8, segPin (performAll s (ws.take 4)) n = driven (b.getLsbD n)) ∧
      (comPin c (performAll s ws) k = .L ∧ ∀ n : Fin 8, segPin (performAll s ws) n = driven (b.getLsbD n))) ∧
  (∀ {pw dw iw : Nat} (c : Config pw dw iw) (k : Fin 4) (s : State pw dw iw) (b : Byte), packDigits c k s.digits = .ok b → s.segDir = 0x00 → s.comDir = 0x00 →
    ∃ ws, lowWrites c k s = .ok ws ∧ allFloat c (performAll s (ws.take 2)) ∧
      (∀ i, comPin c (performAll s (ws.take 3)) i = .Z) ∧
      ∀ n : Fin 8, segPin (performAll s (ws.take 3)) n = driven (b.getLsbD n)) ∧
  ∀ {pw dw iw : Nat} (c : Config pw dw iw) (k : Fin 4) (s : State pw dw iw), c.Admissible = true → s.segDir = 0xFF → s.segOut = s.segByte →
    s.comDir = lineBit c k → s.comOut = 0x00 →
    (comPin c (performAll s ((highWrites c k s).take 1)) k = .H ∧
      ∀ n : Fin 8, segPin (performAll s ((highWrites c k s).take 1)) n = driven (s.segByte.getLsbD n)) ∧
    (comPin c (performAll s ((highWrites c k s).take 3)) k = .H ∧
      ∀ n : Fin 8, segPin (performAll s ((highWrites c k s).take 3)) n = driven (!s.segByte.getLsbD n))

/-- 41_refresh_state_machine.md R161: over the eight phases of a frame the drives of every cell sum to 3·(2 − 2·m), m the level of a floated
line (R160, D19, log 15): zero exactly at the mid level m = 1. For every admissible wiring and any table, whatever the digits do. -/
def Obligations.FrameDcSum : Prop :=
  ∀ {pw dw iw : Nat} (c : Config pw dw iw) (t : Nat → State pw dw iw), c.Admissible = true → (t 0).phase = 7 →
    (∀ n < 8, consumedTick c (t n) = .next (t (n + 1))) →
    ∀ (k : Fin 4) (l : Fin 8),
      ((List.range 8).map fun n => cellDrive c (t (n + 1)) k l).sum = 3 * (2 - 2 * c.floatLevel)

/-- 41_refresh_state_machine.md R161 with the mid level of R160 (D19, log 15): the squared drive of a cell summed over a frame is 14 where its
bit of the line's latched byte is 1 and 6 where it is 0. -/
def Obligations.FrameDriveSquares : Prop :=
  ∀ {pw dw iw : Nat} (c : Config pw dw iw) (t : Nat → State pw dw iw), c.Admissible = true → c.floatLevel = 1 → (t 0).phase = 7 →
    (∀ n < 8, consumedTick c (t n) = .next (t (n + 1))) →
    ∀ (k : Fin 4) (l : Fin 8),
      ((List.range 8).map fun n => cellDrive c (t (n + 1)) k l ^ 2).sum =
        if (t (2 * k.val + 1)).segByte.getLsbD l then 14 else 6

/-! ## The counter -/

/-- 43_bcd_counter.md R180 (the equality and the wrap of 255 are D4, log 4): COUNT completes in every state: off the threshold it steps
INTERVAL and nothing else; at INTERVAL = 99 it clears INTERVAL and does what INCR does. -/
def Obligations.CountStepsTheInterval : Prop :=
  ∀ s : State,
    (s.interval ≠ 99 → exec .count s = .next { s with interval := s.interval + 1 }) ∧
    (s.interval = 99 → ∃ t, exec .incr s = .next t ∧ exec .count s = .next { t with interval := 0 })

/-- 43_bcd_counter.md R182, R183 (9999 is followed by 0000: D14, log 6): INCR on a decimal number completes, adds one modulo 10000, leaves
decimal digits and changes nothing else. -/
def Obligations.IncrAddsOneToTheNumber : Prop :=
  ∀ s : State, digitsOk s.digits →
    ∃ x, exec .incr s = .next { s with digits := x } ∧ digitsOk x ∧ number x = (number s.digits + 1) % 10000

/-- 43_bcd_counter.md R182 read literally on any contents of the digits (D27, D3, log 2, 26): INCR completes in every state, the carry passes
a digit exactly when that digit was 9, and a digit above 9 counts on modulo 16 without a carry. -/
def Obligations.IncrCarriesOnlyFromNine : Prop :=
  ∀ s : State, exec .incr s = .next { s with digits :=
    if s.digits.q0 ≠ 9 then { s.digits with q0 := s.digits.q0 + 1 }
    else if s.digits.q1 ≠ 9 then { s.digits with q0 := 0, q1 := s.digits.q1 + 1 }
    else if s.digits.q2 ≠ 9 then { s.digits with q0 := 0, q1 := 0, q2 := s.digits.q2 + 1 }
    else { q0 := 0, q1 := 0, q2 := 0, q3 := if s.digits.q3 = 9 then 0 else s.digits.q3 + 1 } }

/-- 43_bcd_counter.md R183 (D14, log 6): the number after 9999 is 0000, or 0001 with the switch of the reference firmware, for any admissible
parameters. -/
def Obligations.OverflowFollowsTheSwitch : Prop :=
  ∀ {pw dw iw : Nat} (c : Config pw dw iw) (s : State pw dw iw), c.Admissible = true → s.digits = ⟨9, 9, 9, 9⟩ →
    incr c s = .next { s with digits := if c.overflowSkipsZero then ⟨1, 0, 0, 0⟩ else ⟨0, 0, 0, 0⟩ }

/-- 43_bcd_counter.md R181: from any state within the contract with INTERVAL = 0, cold start among them, 99 consumed ticks bring no increment
and the hundredth brings exactly one and resets INTERVAL to 0. (The step after 9999 is the statement NumberAfterConsumedTicks.) -/
def Obligations.HundredthTickStepsTheNumber : Prop :=
  ∀ s : State, Contract Config.machine s → s.interval = 0 →
    (∀ n ≤ 99, ∃ t, consumedTicks Config.machine n s = .next t ∧ t.digits = s.digits ∧ t.interval.toNat = n) ∧
    ∃ t, consumedTicks Config.machine 100 s = .next t ∧ t.interval = 0 ∧ digitsOk t.digits ∧
      (number s.digits < 9999 → number t.digits = number s.digits + 1)

/-- 41_refresh_state_machine.md R156, 43_bcd_counter.md R181, R184 (the wrap at 9999 is D14, log 6): from any state within the contract, N
consumed ticks complete, move the phase by N modulo 8, and the count of ticks held in the number and INTERVAL by N modulo 1 000 000. -/
def Obligations.NumberAfterConsumedTicks : Prop :=
  ∀ (s : State) (n : Nat), Contract Config.machine s →
    ∃ t, consumedTicks Config.machine n s = .next t ∧ Contract Config.machine t ∧
      t.phase.toNat = (s.phase.toNat + n) % 8 ∧
      100 * number t.digits + t.interval.toNat = (100 * number s.digits + s.interval.toNat + n) % 1000000

/-- 10_state.md R42, 43_bcd_counter.md R180 to R183 for any admissible parameters, the widths of 00_scope.md R8 and the threshold among them
(D1, D3, D4, D14: log 1, 2, 5, 6): within the contract a SERVICE with READY = 1 completes and keeps the contract, the phase counts
modulo 8, INTERVAL modulo the threshold, and the number steps exactly when the threshold is reached. -/
def Obligations.ServiceCountsAtAnyWidth : Prop :=
  ∀ {pw dw iw : Nat} (c : Config pw dw iw) (s : State pw dw iw), c.Admissible = true → Contract c s → s.ready = true →
    ∃ t, service c s = .next t ∧ Contract c t ∧ t.ready = false ∧ t.phase.toNat = (s.phase.toNat + 1) % 8 ∧
      t.interval.toNat = (s.interval.toNat + 1) % c.intervalThreshold ∧
      (s.interval.toNat + 1 < c.intervalThreshold → t.digits = s.digits) ∧
      (s.interval.toNat + 1 = c.intervalThreshold → number t.digits =
        if number s.digits = 9999 then (if c.overflowSkipsZero then 1 else 0) else number s.digits + 1)

/-! ## Whole-machine rules -/

/-- The frame of every operation (10_state.md R39 and each operation's rule): when it completes, every register outside its column is
as it was. The columns are `mayWrite`: COM0L to COM3L write SEGBYTE and the four port registers, COM0H to COM3H the four port registers,
OFF the two direction registers, TICK READY, SLEEP, PACK and LUT none, ADVANCE PHASE, COUNT INTERVAL and the digits, INCR the digits,
SERVICE and RESET any. -/
def Obligations.OperationsWriteOnlyTheirRegisters : Prop :=
  ∀ (i : Instr) (s t : State) (r : Reg), exec i s = .next t → mayWrite i r = false → readReg t r = readReg s r

/-- The rest of the frame: no operation touches what is still to be supplied; only TICK, SLEEP and RESET reach the host's state and the marks
(44_service_and_sleep.md R205, 60_exceptions.md R235); only LUT, PACK and RESET touch the returned byte (log 20). -/
def Obligations.OperationsKeepTheHost : Prop :=
  ∀ (i : Instr) (s t : State), exec i s = .next t →
    t.schedule = s.schedule ∧ (reachesHost i = false → sameHost s t) ∧
    ((∀ k, i ≠ .pack k) → (∀ v, i ≠ .lut v) → i ≠ .reset → t.returned = s.returned)

/-- 60_exceptions.md R240: the interrupt context writes READY, to 1, and acknowledges the timer, and nothing else; the main-loop context
writes READY only to 0. -/
def Obligations.ContextsKeepToTheirRegisters : Prop :=
  ∀ (i : Instr) (s t : State), exec i s = .next t →
    (contextOf i = .interrupt → t.ready = true ∧ t.timerEvent = false ∧ (∀ r, r ≠ .ready → readReg t r = readReg s r) ∧
      t.gie = s.gie ∧ t.sleepEn = s.sleepEn ∧ t.work = s.work) ∧
    (contextOf i = .mainLoop → t.ready = s.ready ∨ t.ready = false)

/-! ## Invariants and runs -/

/-- Cold start meets the invariant (10_state.md R40, R42; READY, INTERVAL and the host's state are choices: D5, log 7, 18). -/
def Obligations.InvariantAtReset : Prop :=
  Inv Config.machine State.reset ∧ Contract Config.machine State.reset

/-- 10_state.md R42, R23, R26: every step, whatever is supplied, keeps PHASE in 0..7, every digit in 0..9 and INTERVAL in 0..99, as they are
once the loop body in progress is done, and loses no wake-up (log 19, 23). -/
def Obligations.ContractIsKeptByEveryStep : Prop :=
  ∀ s t : State, Inv Config.machine s → step s = .next t → Inv Config.machine t

/-- 10_state.md R42, second half: every step keeps the ports driven as the phase says, where neither RESET nor the test event EMIT is
supplied (log 19, 21). -/
def Obligations.PortsStayDriven : Prop :=
  ∀ s t : State, DrivenInv Config.machine s → step s = .next t → DrivenInv Config.machine t

/-- 10_state.md R42, 60_exceptions.md R220, R222: under the invariant no step faults unless it runs a supplied test event EMIT, and the only
refusal is a SERVICE supplied with READY = 0. -/
def Obligations.OnlyAnUnreadyServiceIsRefused : Prop :=
  ∀ s : State, Inv Config.machine s → (∀ p, s.schedule.head? ≠ some (.emit p)) →
    (∀ e, step s ≠ .fault e) ∧
    ∀ e, step s = .refused e → e = .serviceNotReady ∧ s.ready = false ∧ s.schedule.head? = some .service

/-- 00_scope.md R12, 44_service_and_sleep.md R202: left to itself, the machine runs for ever within the contract. -/
def Obligations.MachineRunsForEver : Prop :=
  ∀ (s : State) (n : Nat), Inv Config.machine s → s.schedule = [] →
    ∃ t : State, Host.Core.run Sys2Proof.core n s = .next t ∧ Inv Config.machine t ∧ t.schedule = []

/-- 00_scope.md R11, 44_service_and_sleep.md R202 (log 19, 22): run write by write, a loop body with no tick in it ends in exactly the state
that the events SERVICE and SLEEP give, or SLEEP alone when READY = 0. -/
def Obligations.WriteByWriteReachesTheEvents : Prop :=
  ∀ s v : State, s.schedule = [] → s.work = [] → s.halted = false → s.timerEvent = false →
    (s.ready = true → andThen (exec .service s) (exec .sleep) = .next v → ∃ n, Host.Core.run Sys2Proof.core n s = .next v) ∧
    (s.ready = false → exec .sleep s = .next v → ∃ n, Host.Core.run Sys2Proof.core n s = .next v)

/-- 44_service_and_sleep.md R202, R203, 70_reset_and_hazards.md R271 (log 22): left to itself where it rests in its sleep, the machine comes to rest
there again with one tick fired and consumed and none lost: its registers are those one consumed tick gives. -/
def Obligations.OwnRunConsumesEveryTick : Prop :=
  ∀ s : State, Inv Config.machine s → Asleep s → ∃ (n : Nat) (t u : State),
    Host.Core.run Sys2Proof.core n s = .next t ∧ consumedTick Config.machine s = .next u ∧ sameRegisters t u ∧
    t.ticks = s.ticks + 1 ∧ t.overruns = s.overruns ∧ Inv Config.machine t ∧ Asleep t

/-- 30_encoding.md R108 (log 16, 21, 29): a program runs to its end. A refused SERVICE is no step: it leaves the state as it was and the next
event comes. Under the contract every program without EMIT comes to its last event; with EMIT it does, or faults; `n*T` ends where
n consumed ticks do. (`own`, which is no event of R108, is left out.) -/
def Obligations.ProgramRunsToItsEnd : Prop :=
  (∀ (s : State) rest, s.schedule = .service :: rest → mainLoopWaits s = false → s.ready = false →
    traceStep s = .next { s with schedule := rest }) ∧
  (∀ (s : State) items, Event.own ∉ expandTrace items →
    (∀ t, runProgram s items = .next t → t.schedule = []) ∧ (∀ e, runProgram s items ≠ .refused e) ∧
    (Inv Config.machine s → (∀ p, .emit p ∉ expandTrace items) →
      ∃ t, runProgram s items = .next t ∧ t.schedule = [] ∧ Inv Config.machine t)) ∧
  ∀ (s t : State) (n : Nat), s.work = [] → consumedTicks Config.machine n s = .next t →
    runProgram s [.consumed n] = .next { t with schedule := [] }
end

