-- ==== Sys2Proof/Laws/Decode.lean ====
section
/-! SUPPORT. The small lemmas of the decoder and the encoder. -/

namespace Sys2Proof

@[simp] theorem decode_nil : decode [] = .rejected .noCode := rfl
@[simp] theorem decode_cons (p : Byte) (rest : List Byte) : decode (p :: rest) = .instr (decodePhase p) rest := rfl

/-- A code is reserved exactly when it is 8 or more (30_encoding.md R90, R93). -/
theorem isReservedCode_iff {pw : Nat} (p : BitVec pw) : isReservedCode p = true ↔ 8 ≤ p.toNat := by
  simp only [isReservedCode, bne_iff_ne, ne_eq, ← BitVec.toNat_inj, BitVec.toNat_ushiftRight, Nat.shiftRight_eq_div_pow,
    BitVec.ofNat_eq_ofNat, BitVec.toNat_ofNat, Nat.zero_mod]
  omega

/-- What a code decodes to. -/
theorem decodePhase_cases (p : Byte) :
    (isReservedCode p = true ∧ decodePhase p = .off p) ∨
    (isReservedCode p = false ∧ codeHigh p = true ∧ decodePhase p = highInstr (codeLine p)) ∨
    (isReservedCode p = false ∧ codeHigh p = false ∧ decodePhase p = lowInstr (codeLine p)) := by
  cases h : isReservedCode p <;> cases h' : codeHigh p <;> simp [decodePhase, h, h']

end Sys2Proof
end

