-- ==== Sys2Proof/Laws/State.lean ====
section
/-! SUPPORT. The small lemmas of the state's updates: what each access, the timer and the interrupt leave in each field.
Each access is the record update of one field, so that no later proof unfolds it. -/

namespace Sys2Proof
namespace Machine

variable {pw dw iw : Nat}

variable (s : State pw dw iw)

@[simp] theorem performWrite_phase (v : BitVec pw) : performWrite s (.phase v) = { s with phase := v } := rfl
@[simp] theorem performWrite_digit (d : Fin 4) (v : BitVec dw) :
    performWrite s (.digit d v) = { s with digits := s.digits.set d v } := rfl
@[simp] theorem performWrite_interval (v : BitVec iw) : performWrite s (.interval v) = { s with interval := v } := rfl
@[simp] theorem performWrite_segByte (v : Byte) : performWrite s (.segByte v) = { s with segByte := v } := rfl
@[simp] theorem performWrite_segDir (v : Byte) : performWrite s (.segDir v) = { s with segDir := v } := rfl
@[simp] theorem performWrite_segOut (v : Byte) : performWrite s (.segOut v) = { s with segOut := v } := rfl
@[simp] theorem performWrite_comDir (v : Byte) : performWrite s (.comDir v) = { s with comDir := v } := rfl
@[simp] theorem performWrite_comOut (v : Byte) : performWrite s (.comOut v) = { s with comOut := v } := rfl
@[simp] theorem performWrite_clearReady : performWrite s .clearReady = { s with ready := false } := rfl
@[simp] theorem performWrite_sleepEn (b : Bool) : performWrite s (.sleepEn b) = { s with sleepEn := b } := rfl
@[simp] theorem performWrite_enableInterrupts : performWrite s .enableInterrupts = { s with gie := true } := rfl
@[simp] theorem performWrite_halt : performWrite s .halt = { s with halted := !s.ready } := rfl

@[simp] theorem performAll_nil : performAll s [] = s := rfl
@[simp] theorem performAll_cons (w : Write pw dw iw) (ws : List (Write pw dw iw)) :
    performAll s (w :: ws) = performAll (performWrite s w) ws := rfl
@[simp] theorem performAll_append (ws vs : List (Write pw dw iw)) :
    performAll s (ws ++ vs) = performAll (performAll s ws) vs :=
  List.foldl_append

/-! No access touches what the outside supplies, the loop body, the timer or the marks. -/

@[simp] theorem performWrite_work (w : Write pw dw iw) : (performWrite s w).work = s.work := by cases w <;> rfl
@[simp] theorem performWrite_schedule (w : Write pw dw iw) : (performWrite s w).schedule = s.schedule := by cases w <;> rfl
@[simp] theorem performWrite_timerEvent (w : Write pw dw iw) : (performWrite s w).timerEvent = s.timerEvent := by cases w <;> rfl
@[simp] theorem performWrite_ticks (w : Write pw dw iw) : (performWrite s w).ticks = s.ticks := by cases w <;> rfl
@[simp] theorem performWrite_overruns (w : Write pw dw iw) : (performWrite s w).overruns = s.overruns := by cases w <;> rfl
@[simp] theorem performWrite_returned (w : Write pw dw iw) : (performWrite s w).returned = s.returned := by cases w <;> rfl

/-- A field that every access keeps is kept by a list of accesses. -/
theorem performAll_keeps {α : Type} (f : State pw dw iw → α) (ws : List (Write pw dw iw))
    (h : ∀ w ∈ ws, ∀ s, f (performWrite s w) = f s) : f (performAll s ws) = f s := by
  induction ws generalizing s with
  | nil => rfl
  | cons w ws ih =>
    rw [performAll_cons, ih _ fun v hv => h v (List.mem_cons_of_mem _ hv), h w List.mem_cons_self]

@[simp] theorem performAll_work (ws : List (Write pw dw iw)) : (performAll s ws).work = s.work :=
  performAll_keeps s State.work ws fun w _ s => performWrite_work s w
@[simp] theorem performAll_schedule (ws : List (Write pw dw iw)) : (performAll s ws).schedule = s.schedule :=
  performAll_keeps s State.schedule ws fun w _ s => performWrite_schedule s w
@[simp] theorem performAll_timerEvent (ws : List (Write pw dw iw)) : (performAll s ws).timerEvent = s.timerEvent :=
  performAll_keeps s State.timerEvent ws fun w _ s => performWrite_timerEvent s w
@[simp] theorem performAll_ticks (ws : List (Write pw dw iw)) : (performAll s ws).ticks = s.ticks :=
  performAll_keeps s State.ticks ws fun w _ s => performWrite_ticks s w
@[simp] theorem performAll_overruns (ws : List (Write pw dw iw)) : (performAll s ws).overruns = s.overruns :=
  performAll_keeps s State.overruns ws fun w _ s => performWrite_overruns s w
@[simp] theorem performAll_returned (ws : List (Write pw dw iw)) : (performAll s ws).returned = s.returned :=
  performAll_keeps s State.returned ws fun w _ s => performWrite_returned s w

/-- A field that every access computes from that field alone agrees after a list of accesses where it agreed before. -/
theorem performAll_congr {α : Type} (f : State pw dw iw → α) (h : ∀ w s t, f s = f t → f (performWrite s w) = f (performWrite t w))
    {s t : State pw dw iw} (e : f s = f t) (ws : List (Write pw dw iw)) : f (performAll s ws) = f (performAll t ws) := by
  induction ws generalizing s t with
  | nil => exact e
  | cons w ws ih => exact ih (h w s t e)

/-! The registers of the block end the same where they begin the same: no access reads another register. -/

section
variable {s} {t : State pw dw iw} (ws : List (Write pw dw iw))

theorem performAll_digits_congr (e : s.digits = t.digits) : (performAll s ws).digits = (performAll t ws).digits :=
  performAll_congr State.digits (fun w _ _ e => by cases w <;> simp_all) e ws
theorem performAll_phase_congr (e : s.phase = t.phase) : (performAll s ws).phase = (performAll t ws).phase :=
  performAll_congr State.phase (fun w _ _ e => by cases w <;> simp_all) e ws
theorem performAll_ready_congr (e : s.ready = t.ready) : (performAll s ws).ready = (performAll t ws).ready :=
  performAll_congr State.ready (fun w _ _ e => by cases w <;> simp_all) e ws
theorem performAll_interval_congr (e : s.interval = t.interval) : (performAll s ws).interval = (performAll t ws).interval :=
  performAll_congr State.interval (fun w _ _ e => by cases w <;> simp_all) e ws
theorem performAll_segByte_congr (e : s.segByte = t.segByte) : (performAll s ws).segByte = (performAll t ws).segByte :=
  performAll_congr State.segByte (fun w _ _ e => by cases w <;> simp_all) e ws
theorem performAll_segDir_congr (e : s.segDir = t.segDir) : (performAll s ws).segDir = (performAll t ws).segDir :=
  performAll_congr State.segDir (fun w _ _ e => by cases w <;> simp_all) e ws
theorem performAll_segOut_congr (e : s.segOut = t.segOut) : (performAll s ws).segOut = (performAll t ws).segOut :=
  performAll_congr State.segOut (fun w _ _ e => by cases w <;> simp_all) e ws
theorem performAll_comDir_congr (e : s.comDir = t.comDir) : (performAll s ws).comDir = (performAll t ws).comDir :=
  performAll_congr State.comDir (fun w _ _ e => by cases w <;> simp_all) e ws
theorem performAll_comOut_congr (e : s.comOut = t.comOut) : (performAll s ws).comOut = (performAll t ws).comOut :=
  performAll_congr State.comOut (fun w _ _ e => by cases w <;> simp_all) e ws

end

/-- Reset is cold start at the widths of the machine. -/
theorem reset_eq_coldStart : State.reset = State.coldStart := rfl

/-! The timer and the interrupt. -/

@[simp] theorem fireTimer_timerEvent : (fireTimer s).timerEvent = true := rfl
@[simp] theorem fireTimer_ticks : (fireTimer s).ticks = s.ticks + 1 := rfl
@[simp] theorem fireTimer_ready : (fireTimer s).ready = s.ready := rfl
@[simp] theorem fireTimer_halted : (fireTimer s).halted = s.halted := rfl
@[simp] theorem fireTimer_gie : (fireTimer s).gie = s.gie := rfl
@[simp] theorem fireTimer_sleepEn : (fireTimer s).sleepEn = s.sleepEn := rfl
@[simp] theorem fireTimer_work : (fireTimer s).work = s.work := rfl
@[simp] theorem fireTimer_schedule : (fireTimer s).schedule = s.schedule := rfl
@[simp] theorem fireTimer_returned : (fireTimer s).returned = s.returned := rfl

@[simp] theorem takeInterrupt_ready : (takeInterrupt s).ready = true := rfl
@[simp] theorem takeInterrupt_halted : (takeInterrupt s).halted = false := rfl
@[simp] theorem takeInterrupt_timerEvent : (takeInterrupt s).timerEvent = false := rfl
@[simp] theorem takeInterrupt_gie : (takeInterrupt s).gie = s.gie := rfl
@[simp] theorem takeInterrupt_sleepEn : (takeInterrupt s).sleepEn = s.sleepEn := rfl
@[simp] theorem takeInterrupt_work : (takeInterrupt s).work = s.work := rfl
@[simp] theorem takeInterrupt_schedule : (takeInterrupt s).schedule = s.schedule := rfl
@[simp] theorem takeInterrupt_ticks : (takeInterrupt s).ticks = s.ticks := rfl
@[simp] theorem takeInterrupt_returned : (takeInterrupt s).returned = s.returned := rfl

/-! Quads. -/

@[simp] theorem quad_get_set_self {α : Type} (q : Quad α) (d : Fin 4) (v : α) : (q.set d v).get d = v := by
  fin_cases d <;> rfl

theorem quad_get_set_of_ne {α : Type} (q : Quad α) {d e : Fin 4} (v : α) (h : e ≠ d) :
    (q.set d v).get e = q.get e := by
  fin_cases d <;> fin_cases e <;> first | rfl | exact absurd rfl h

theorem quad_ext {α : Type} {p q : Quad α} (h : ∀ d, p.get d = q.get d) : p = q := by
  obtain ⟨p0, p1, p2, p3⟩ := p
  obtain ⟨q0, q1, q2, q3⟩ := q
  obtain rfl : p0 = q0 := h 0
  obtain rfl : p1 = q1 := h 1
  obtain rfl : p2 = q2 := h 2
  obtain rfl : p3 = q3 := h 3
  rfl

end Machine
end Sys2Proof
end

