-- ==== Sys2Proof/Laws/Ops.lean ====
section
/-! SUPPORT. One lemma for each shared operation, that says everything it can do. Proofs about operations cite these. -/

namespace Sys2Proof
namespace Machine

variable {pw dw iw : Nat}

/-! Composition and commitment. -/

@[simp] theorem andThen_next (s : State pw dw iw) (f : State pw dw iw → Result pw dw iw) : andThen (.next s) f = f s := rfl
@[simp] theorem andThen_fault (e : Fault) (f : State pw dw iw → Result pw dw iw) : andThen (.fault e) f = .fault e := rfl
@[simp] theorem andThen_refused (e : Refusal) (f : State pw dw iw → Result pw dw iw) : andThen (.refused e) f = .refused e := rfl

/-- A composition completes when both its parts do. -/
theorem andThen_eq_next {r : Result pw dw iw} {f : State pw dw iw → Result pw dw iw} {t : State pw dw iw} :
    andThen r f = .next t ↔ ∃ s, r = .next s ∧ f s = .next t := by
  cases r <;> simp [andThen]

/-- A committed list of accesses completes when the list could be computed, with all of them made. -/
theorem commit_eq_next {ws : Except Fault (List (Write pw dw iw))} {s t : State pw dw iw} :
    commit ws s = .next t ↔ ∃ l, ws = .ok l ∧ t = performAll s l := by
  cases ws <;> simp [commit, eq_comm]

/-- An operation that returns a byte changes nothing but the place the byte is kept in. -/
theorem returnByte_eq_next {b : Except Fault Byte} {s t : State pw dw iw} :
    returnByte b s = .next t ↔ ∃ v, b = .ok v ∧ t = { s with returned := some v } := by
  cases b <;> simp [returnByte, eq_comm]

/-! Register reads after writes. -/

/-- An access leaves every register but its target as it was. -/
theorem readReg_performWrite_of_ne (s : State pw dw iw) {w : Write pw dw iw} {r : Reg} (h : w.target ≠ some r) :
    readReg (performWrite s w) r = readReg s r := by
  cases w <;> cases r <;> try rfl
  all_goals simp only [Write.target, ne_eq, Option.some.injEq, not_true_eq_false] at h
  case digit.digit d v e =>
    simp only [Reg.digit.injEq] at h
    simp only [performWrite_digit, readReg]
    rw [quad_get_set_of_ne _ _ (Ne.symm h)]

/-- Accesses leave every register that none of them targets as it was. -/
theorem readReg_performAll (s : State pw dw iw) {ws : List (Write pw dw iw)} {r : Reg} (h : ∀ w ∈ ws, w.target ≠ some r) :
    readReg (performAll s ws) r = readReg s r :=
  performAll_keeps s (readReg · r) ws fun w hw s => readReg_performWrite_of_ne s (h w hw)

/-- Accesses to registers of the block leave the host's state as it was. -/
theorem sameHost_performAll (s : State pw dw iw) {ws : List (Write pw dw iw)} (h : ∀ w ∈ ws, w.target ≠ none) :
    sameHost (performAll s ws) s := by
  have keep : ∀ w ∈ ws, ∀ s, (performWrite s w).gie = s.gie ∧ (performWrite s w).sleepEn = s.sleepEn ∧
      (performWrite s w).halted = s.halted := by
    intro w hw s
    have := h w hw
    cases w <;> simp_all [Write.target]
  exact ⟨by simp, performAll_keeps s State.gie ws fun w hw s => (keep w hw s).1,
    performAll_keeps s State.sleepEn ws fun w hw s => (keep w hw s).2.1,
    performAll_keeps s State.halted ws fun w hw s => (keep w hw s).2.2, by simp, by simp, by simp⟩

/-! The ROM and PACK. -/

/-- A lookup answers the table's entry for a decimal digit. -/
theorem lookup_of_le (c : Config pw dw iw) (d : Option (Fin 4)) {v : Nat} (h : v ≤ 9) :
    lookup c d v = .ok c.segLut[v] := by
  have : v < 10 := by omega
  simp [lookup, memRead, this]

/-- A lookup faults above 9. -/
theorem lookup_of_gt (c : Config pw dw iw) (d : Option (Fin 4)) {v : Nat} (h : 9 < v) :
    lookup c d v = .error (.lutDomain d v) := by
  have : ¬ v < 10 := by omega
  simp [lookup, memRead, this]

/-- The patterns of decimal digits are the four entries of the table. -/
theorem patterns_of_digitsOk (c : Config pw dw iw) {x : Quad (BitVec dw)} (h : digitsOk x) :
    ∃ ps, patterns c x = .ok ps ∧ ∀ d, lookup c none (x.get d).toNat = .ok (ps.get d) := by
  obtain ⟨h0, h1, h2, h3⟩ := h
  refine ⟨⟨c.segLut[x.q0.toNat]'(by omega), c.segLut[x.q1.toNat]'(by omega), c.segLut[x.q2.toNat]'(by omega),
    c.segLut[x.q3.toNat]'(by omega)⟩, ?_, fun d => ?_⟩
  · simp [patterns, lookup_of_le, h0, h1, h2, h3, bind, Except.bind, pure, Except.pure]
  · fin_cases d <;> exact lookup_of_le c none (by assumption)

/-- PACK answers for decimal digits. -/
theorem packDigits_of_digitsOk (c : Config pw dw iw) (k : Fin 4) {x : Quad (BitVec dw)} (h : digitsOk x) :
    ∃ b, packDigits c k x = .ok b := by
  obtain ⟨ps, hps, -⟩ := patterns_of_digitsOk c h
  exact ⟨packByte c k ps, by simp [packDigits, hps, bind, Except.bind, pure, Except.pure]⟩

/-! The refresh operations. -/

/-- LOW(k) completes when PACK answers, with the whole of its end state. -/
theorem low_eq_next {c : Config pw dw iw} {k : Fin 4} {s t : State pw dw iw} :
    low c k s = .next t ↔ ∃ b, packDigits c k s.digits = .ok b ∧
      t = { s with segByte := b, segOut := b, segDir := 0xFF, comOut := 0x00, comDir := lineBit c k } := by
  rcases h : packDigits c k s.digits with e | b <;>
    simp [low, lowWrites, commit, h, bind, Except.bind, pure, Except.pure, eq_comm]

/-- HIGH(k) always completes, with the whole of its end state. -/
theorem high_eq (c : Config pw dw iw) (k : Fin 4) (s : State pw dw iw) :
    high c k s = .next { s with segOut := inverted s.segByte, segDir := 0xFF, comOut := lineBit c k, comDir := lineBit c k } :=
  rfl

/-- OFF always completes, with the whole of its end state. -/
theorem off_eq (s : State pw dw iw) : off s = .next { s with segDir := 0x00, comDir := 0x00 } := rfl

/-- ADVANCE always completes, with the whole of its end state. -/
theorem advance_eq (s : State pw dw iw) : advance s = .next { s with phase := nextPhase s.phase } := rfl

/-- The successor of any phase is a legal phase. -/
theorem nextPhase_le (p : BitVec pw) : (nextPhase p).toNat ≤ 7 := by
  unfold nextPhase
  split
  · simp
  · have := Nat.mod_le (p.toNat + (1 : BitVec pw).toNat) (2 ^ pw)
    have : (1 : BitVec pw).toNat ≤ 1 := by simpa using Nat.mod_le 1 (2 ^ pw)
    rw [BitVec.toNat_add]
    omega

/-- The dispatch has three cases. -/
theorem emitWrites_cases (c : Config pw dw iw) {qw : Nat} (p : BitVec qw) (s : State pw dw iw) :
    (isReservedCode p = true ∧ emitWrites c p s = .ok offWrites) ∨
    (isReservedCode p = false ∧ codeHigh p = true ∧ emitWrites c p s = .ok (highWrites c (codeLine p) s)) ∨
    (isReservedCode p = false ∧ codeHigh p = false ∧ emitWrites c p s = lowWrites c (codeLine p) s) := by
  cases h : isReservedCode p <;> cases h' : codeHigh p <;> simp [emitWrites, h, h']

/-! The tick, sleep and reset. -/

/-- TICK always completes, with the whole of its end state. -/
theorem tick_eq (s : State pw dw iw) : ∃ n, tick s = .next { s with
      ready := true, timerEvent := false, halted := false, ticks := n,
      overruns := if s.ready then s.overruns ++ [n] else s.overruns } ∧
    n = if s.timerEvent then s.ticks else s.ticks + 1 := by
  refine ⟨_, ?_, rfl⟩
  cases h : s.timerEvent <;>
    simp [tick, takeInterrupt, tickHandler, enterInterrupt, returnFromInterrupt, fireTimer, h]

/-- SLEEP with no tick pending halts, with one access left for the wake-up. -/
theorem sleep_of_not_ready {s : State pw dw iw} (h : s.ready = false) : sleep s = .next { s with
    gie := true, sleepEn := true, halted := true, work := .sleepEn false :: s.work } := by
  simp [sleep, sleepEntry, sleepExit, h]

/-- SLEEP with a tick pending is over at once. -/
theorem sleep_of_ready {s : State pw dw iw} (h : s.ready = true) :
    sleep s = .next { s with gie := true, sleepEn := false, halted := false } := by
  simp [sleep, sleepEntry, sleepExit, h]

/-- SERVICE completes when a tick is pending and its writes could be computed. -/
theorem service_eq_next {c : Config pw dw iw} {s t : State pw dw iw} :
    service c s = .next t ↔ s.ready = true ∧ ∃ ws, serviceWrites c s = .ok ws ∧ t = performAll s ws := by
  cases h : s.ready <;> simp [service, serviceEnabled, h, commit_eq_next]

/-! The run of a program. -/

@[simp] theorem skipRefused_next (s t : State) : skipRefused s (.next t) = .next t := rfl
@[simp] theorem skipRefused_fault (s : State) (e : Fault) : skipRefused s (.fault e) = .fault e := rfl
@[simp] theorem skipRefused_serviceNotReady (s : State) :
    skipRefused s (.refused .serviceNotReady) = .next { s with schedule := s.schedule.tail } := rfl

/-- A step of a run is a step of the machine, or drops a refused SERVICE. -/
theorem traceStep_eq_next {s t : State} : traceStep s = .next t ↔
    step s = .next t ∨ (step s = .refused .serviceNotReady ∧ t = { s with schedule := s.schedule.tail }) := by
  rcases h : step s with u | e | e
  · simp [traceStep, h]
  · simp [traceStep, h]
  · by_cases he : e = .serviceNotReady <;> simp [traceStep, skipRefused, h, he, eq_comm]

@[simp] theorem runTrace_zero (s : State) : runTrace 0 s = .next s := rfl

/-- A run ends where no event is left. -/
theorem runTrace_of_schedule_nil {s : State} (h : s.schedule = []) (n : Nat) : runTrace n s = .next s := by
  cases n <;> simp [runTrace, h]

/-- A run with events left makes its next step. -/
theorem runTrace_succ {s : State} (h : s.schedule ≠ []) (n : Nat) :
    runTrace (n + 1) s = andThen (traceStep s) (runTrace n) := by
  simp [runTrace, h]

/-! The operations by name, and the step. -/

/-- The machine's operations are those of its parameters. -/
theorem exec_eq_execWith (i : Instr) (s : State) : exec i s = execWith Config.machine i s := by
  cases i <;> rfl

/-- What the machine's own move can be. -/
theorem ownMove_cases (c : Config pw dw iw) (s : State pw dw iw) :
    (interruptTaken s = true ∧ ownMove c s = tick s) ∨
    (interruptTaken s = false ∧ s.halted = true ∧ ownMove c s = .next (fireTimer s)) ∨
    (interruptTaken s = false ∧ s.halted = false ∧ ∃ w ws, s.work = w :: ws ∧
      ownMove c s = .next (performWrite { s with work := ws } w)) ∨
    (interruptTaken s = false ∧ s.halted = false ∧ s.work = [] ∧ ∃ ws, loopBody c s = .ok ws ∧
      ownMove c s = .next { s with work := ws }) ∨
    (interruptTaken s = false ∧ s.halted = false ∧ s.work = [] ∧ ∃ e, loopBody c s = .error e ∧ ownMove c s = .fault e) := by
  unfold ownMove
  cases interruptTaken s <;> cases s.halted <;> rcases s.work with _ | ⟨w, ws⟩ <;> rcases h : loopBody c s with e | ws <;> simp

/-- What the next move can be: nothing supplied, or the head of the schedule, or a main-loop event that waits. -/
theorem nextMove_cases (s : State) :
    (s.schedule = [] ∧ nextMove s = .own s) ∨
    ∃ e rest, s.schedule = e :: rest ∧
      ((e = .own ∧ nextMove s = .own { s with schedule := rest }) ∨
       (e = .timerFires ∧ nextMove s = .firing { s with schedule := rest }) ∨
       (e = .tick ∧ nextMove s = .operation .tick { s with schedule := rest }) ∨
       (e = .reset ∧ nextMove s = .operation .reset { s with schedule := rest }) ∨
       (∃ p, e = .emit p ∧ nextMove s = .operation (decodePhase p) { s with schedule := rest }) ∨
       (e = .service ∧ mainLoopWaits s = false ∧ nextMove s = .operation .service { s with schedule := rest }) ∨
       (e = .sleep ∧ mainLoopWaits s = false ∧ nextMove s = .operation .sleep { s with schedule := rest }) ∨
       ((e = .service ∨ e = .sleep) ∧ mainLoopWaits s = true ∧ nextMove s = .own s)) := by
  unfold nextMove
  rcases h : s.schedule with _ | ⟨e, rest⟩
  · simp
  · cases e <;> cases hw : mainLoopWaits s <;> simp

end Machine
end Sys2Proof
end

