-- ==== Sys2Proof/Laws/Service.lean ====
section
/-! SUPPORT. What a SERVICE and its parts can do: one inversion lemma, from which claims about consumed ticks follow. -/

namespace Sys2Proof
namespace Machine

variable {pw dw iw : Nat}

/-- INCR's accesses change the digits only. -/
theorem performAll_incrWrites (c : Config pw dw iw) (s : State pw dw iw) :
    performAll s (incrWrites c s.digits) = { s with digits := (performAll s (incrWrites c s.digits)).digits } := by
  unfold incrWrites
  split_ifs <;> simp

/-- COUNT's accesses change INTERVAL and the digits only. -/
theorem performAll_countWrites (c : Config pw dw iw) (s : State pw dw iw) :
    performAll s (countWrites c s) = { s with
      interval := (performAll s (countWrites c s)).interval, digits := (performAll s (countWrites c s)).digits } := by
  unfold countWrites incrWrites
  split_ifs <;> simp

/-- COUNT's accesses depend on INTERVAL and the digits only. -/
theorem countWrites_congr (c : Config pw dw iw) {s t : State pw dw iw} (hi : s.interval = t.interval) (hd : s.digits = t.digits) :
    countWrites c s = countWrites c t := by
  simp [countWrites, hi, hd]

/-- The dispatch's accesses depend on the digits and SEGBYTE only. -/
theorem emitWrites_congr (c : Config pw dw iw) {qw : Nat} (p : BitVec qw) {s t : State pw dw iw} (hd : s.digits = t.digits) (hb : s.segByte = t.segByte) :
    emitWrites c p s = emitWrites c p t := by
  simp [emitWrites, lowWrites, highWrites, hd, hb]

/-- What the operation of a code that is not reserved leaves: the latch and the four port registers, and nothing else. -/
theorem performAll_emitWrites {c : Config pw dw iw} {qw : Nat} {p : BitVec qw} {s : State pw dw iw} {ws : List (Write pw dw iw)} (hp : isReservedCode p = false)
    (h : emitWrites c p s = .ok ws) :
    (codeHigh p = true ∧ performAll s ws = { s with
      segOut := inverted s.segByte, segDir := 0xFF, comOut := lineBit c (codeLine p), comDir := lineBit c (codeLine p) }) ∨
    (codeHigh p = false ∧ ∃ b, packDigits c (codeLine p) s.digits = .ok b ∧ performAll s ws = { s with
      segByte := b, segOut := b, segDir := 0xFF, comOut := 0x00, comDir := lineBit c (codeLine p) }) := by
  rcases emitWrites_cases c p s with ⟨hr, -⟩ | ⟨-, hh, e⟩ | ⟨-, hh, e⟩
  · simp [hp] at hr
  · rw [e] at h
    cases h
    exact .inl ⟨hh, rfl⟩
  · rw [e] at h
    rcases hb : packDigits c (codeLine p) s.digits with f | b
    · simp [lowWrites, hb, bind, Except.bind] at h
    · simp [lowWrites, hb, bind, Except.bind, pure, Except.pure] at h
      subst h
      exact .inr ⟨hh, b, rfl, rfl⟩

/-- The successor of any phase is no reserved code. -/
theorem isReservedCode_nextPhase (p : BitVec pw) : isReservedCode (nextPhase p) = false := by
  have h := nextPhase_le p
  cases e : isReservedCode (nextPhase p)
  · rfl
  · have := (isReservedCode_iff _).1 e
    omega

/-- A SERVICE's accesses, each part computed at its start: no part writes what a later part's accesses depend on. -/
theorem serviceWrites_eq (c : Config pw dw iw) (s : State pw dw iw) : serviceWrites c s = do
    let e ← emitWrites c (nextPhase s.phase) s
    return advanceWrites s ++ e ++ countWrites c s ++ [.clearReady] := by
  have he : emitWrites c (nextPhase s.phase) (performAll s (advanceWrites s)) = emitWrites c (nextPhase s.phase) s :=
    emitWrites_congr c _ rfl rfl
  have hs : serviceWrites c s = (emitWrites c (nextPhase s.phase) (performAll s (advanceWrites s)) >>= fun e =>
      .ok (advanceWrites s ++ e ++ countWrites c (performAll (performAll s (advanceWrites s)) e) ++ [.clearReady])) := rfl
  rw [hs, he]
  rcases h : emitWrites c (nextPhase s.phase) s with f | ws
  · rfl
  · have := performAll_emitWrites (isReservedCode_nextPhase s.phase) (he.trans h)
    have hc : countWrites c (performAll (performAll s (advanceWrites s)) ws) = countWrites c s := by
      rcases this with ⟨-, e⟩ | ⟨-, b, -, e⟩ <;> rw [e] <;> rfl
    simp only [bind, Except.bind, hc]
    rfl

/-- A SERVICE's accesses depend on PHASE, the digits, SEGBYTE and INTERVAL only. -/
theorem serviceWrites_congr (c : Config pw dw iw) {s t : State pw dw iw} (hp : s.phase = t.phase) (hd : s.digits = t.digits)
    (hb : s.segByte = t.segByte) (hi : s.interval = t.interval) : serviceWrites c s = serviceWrites c t := by
  rw [serviceWrites_eq, serviceWrites_eq, hp, emitWrites_congr c _ hd hb, countWrites_congr c hi hd]
  simp [advanceWrites, hp]

/-- Everything a SERVICE can do when its accesses could be computed: on an odd new phase it inverts the latch, on an even one it loads it;
INTERVAL and the digits go as COUNT takes them. -/
theorem performAll_serviceWrites {c : Config pw dw iw} {s : State pw dw iw} {ws : List (Write pw dw iw)} (h : serviceWrites c s = .ok ws) :
    (codeHigh (nextPhase s.phase) = true ∧ performAll s ws = { s with
      phase := nextPhase s.phase, ready := false,
      segOut := inverted s.segByte, segDir := 0xFF,
      comOut := lineBit c (codeLine (nextPhase s.phase)), comDir := lineBit c (codeLine (nextPhase s.phase)),
      interval := (performAll s (countWrites c s)).interval, digits := (performAll s (countWrites c s)).digits }) ∨
    (codeHigh (nextPhase s.phase) = false ∧ ∃ b, packDigits c (codeLine (nextPhase s.phase)) s.digits = .ok b ∧
      performAll s ws = { s with
        phase := nextPhase s.phase, ready := false,
        segByte := b, segOut := b, segDir := 0xFF,
        comOut := 0x00, comDir := lineBit c (codeLine (nextPhase s.phase)),
        interval := (performAll s (countWrites c s)).interval, digits := (performAll s (countWrites c s)).digits }) := by
  rw [serviceWrites_eq] at h
  rcases he : emitWrites c (nextPhase s.phase) s with f | e
  · simp [he, bind, Except.bind] at h
  · simp only [he, bind, Except.bind, pure, Except.pure, Except.ok.injEq] at h
    subst h
    have he' : emitWrites c (nextPhase s.phase) (performAll s (advanceWrites s)) = .ok e := he
    have count : ∀ u : State pw dw iw, u.interval = s.interval → u.digits = s.digits →
        performAll u (countWrites c s) = { u with
          interval := (performAll s (countWrites c s)).interval, digits := (performAll s (countWrites c s)).digits } := by
      intro u hi hd
      have := performAll_countWrites c u
      rw [countWrites_congr c hi hd, performAll_interval_congr _ hi, performAll_digits_congr _ hd] at this
      exact this
    rcases performAll_emitWrites (isReservedCode_nextPhase s.phase) he' with ⟨hh, eq⟩ | ⟨hh, b, hb, eq⟩
    · refine .inl ⟨hh, ?_⟩
      rw [performAll_append, performAll_append, performAll_append, eq, count _ (by rfl) (by rfl)]
      rfl
    · refine .inr ⟨hh, b, hb, ?_⟩
      rw [performAll_append, performAll_append, performAll_append, eq, count _ (by rfl) (by rfl)]
      rfl

/-- A SERVICE's accesses can be computed when the new phase is odd or the digits are decimal. -/
theorem serviceWrites_ok {c : Config pw dw iw} {s : State pw dw iw} (h : codeHigh (nextPhase s.phase) = true ∨ digitsOk s.digits) :
    ∃ ws, serviceWrites c s = .ok ws := by
  have key : ∃ e, emitWrites c (nextPhase s.phase) s = .ok e := by
    rcases emitWrites_cases c (nextPhase s.phase) s with ⟨-, e⟩ | ⟨-, -, e⟩ | ⟨-, hl, e⟩
    · exact ⟨_, e⟩
    · exact ⟨_, e⟩
    · rcases h with h | h
      · simp [hl] at h
      · obtain ⟨b, hb⟩ := packDigits_of_digitsOk c (codeLine (nextPhase s.phase)) h
        rw [e]
        simp [lowWrites, hb, bind, Except.bind, pure, Except.pure]
  obtain ⟨e, he⟩ := key
  rw [serviceWrites_eq, he]
  exact ⟨_, rfl⟩

end Machine
end Sys2Proof
end

