-- ==== Sys2Proof/Laws/Contract.lean ====
section
/-! SUPPORT. What the contract of 10_state.md R42 depends on, and how it passes through accesses still to be made. -/

namespace Sys2Proof
namespace Machine

variable {pw dw iw : Nat}

/-- The contract after accesses depends on PHASE, the digits and INTERVAL before them only. -/
theorem contract_performAll_congr {c : Config pw dw iw} {s t : State pw dw iw} {ws : List (Write pw dw iw)} (hp : s.phase = t.phase)
    (hd : s.digits = t.digits) (hi : s.interval = t.interval) (h : Contract c (performAll s ws)) : Contract c (performAll t ws) := by
  obtain ⟨h1, h2, h3⟩ := h
  refine ⟨?_, ?_, ?_⟩
  · rw [← performAll_phase_congr ws hp]
    exact h1
  · rw [← performAll_digits_congr ws hd]
    exact h2
  · rw [← performAll_interval_congr ws hi]
    exact h3

/-- The contract at the end of the loop body depends on PHASE, the digits, INTERVAL and the accesses still to be made only. -/
theorem contract_settled_congr {c : Config pw dw iw} {s t : State pw dw iw} (hp : s.phase = t.phase) (hd : s.digits = t.digits)
    (hi : s.interval = t.interval) (hw : s.work = t.work) (h : Contract c (settled s)) : Contract c (settled t) := by
  unfold settled at *
  rw [← hw]
  exact contract_performAll_congr hp hd hi h

/-- The accesses of SLEEP leave the contract as it is. -/
theorem contract_performAll_sleep (c : Config pw dw iw) (s : State pw dw iw) :
    Contract c (performAll s (sleepEntry ++ sleepExit)) ↔ Contract c s := by
  simp [sleepEntry, sleepExit]

/-- Making the next access leaves the end of the loop body where it was. -/
theorem settled_performWrite {s : State pw dw iw} {w : Write pw dw iw} {ws : List (Write pw dw iw)} (h : s.work = w :: ws) :
    settled { performWrite s w with work := ws } = { settled s with work := ws } := by
  have key : ∀ (l : List (Write pw dw iw)) (t : State pw dw iw), performAll { t with work := ws } l = { performAll t l with work := ws } := by
    intro l
    induction l with
    | nil => intro t; rfl
    | cons v l ih =>
      intro t
      rw [performAll_cons, performAll_cons, ← ih]
      cases v <;> rfl
  simp only [settled, h, performAll_cons, key]

/-- A small number is itself in a register wide enough for it. -/
theorem toNat_literal {w n : Nat} (h : n < 2 ^ w) : (BitVec.ofNat w n).toNat = n := by
  rw [BitVec.toNat_ofNat, Nat.mod_eq_of_lt h]

/-- Adding one to a register that does not hold its greatest value. -/
theorem toNat_add_one {w : Nat} {x : BitVec w} (h : x.toNat + 1 < 2 ^ w) : (x + 1).toNat = x.toNat + 1 := by
  have one : (1 : BitVec w).toNat = 1 := toNat_literal (n := 1) (by omega)
  rw [BitVec.toNat_add, one, Nat.mod_eq_of_lt h]

/-- The carry is taken after a digit exactly when the digit was 9, at any width of R8. -/
theorem carryFrom_add_one (hw : 4 ≤ dw) (x : BitVec dw) : carryFrom (x + 1) = true ↔ x = 9 := by
  have hp : 2 ^ 4 ≤ 2 ^ dw := Nat.pow_le_pow_right (by omega) hw
  have hx := x.isLt
  have nine : (9 : BitVec dw).toNat = 9 := toNat_literal (n := 9) (by omega)
  rw [carryFrom, beq_iff_eq, ← BitVec.toNat_inj, nine]
  rcases Nat.lt_or_ge (x.toNat + 1) (2 ^ dw) with hlt | hge
  · rw [toNat_add_one hlt]
    omega
  · have one : (1 : BitVec dw).toNat = 1 := toNat_literal (n := 1) (by omega)
    have : x.toNat + 1 = 2 ^ dw := by omega
    rw [BitVec.toNat_add, one, this, Nat.mod_self]
    omega

/-- A decimal digit that is not 9 stays decimal when one is added, at any width of R8. -/
theorem toNat_add_one_of_ne_nine (hw : 4 ≤ dw) {x : BitVec dw} (h : x.toNat ≤ 9) (h9 : x ≠ 9) :
    (x + 1).toNat = x.toNat + 1 ∧ x.toNat ≤ 8 := by
  have hp : 2 ^ 4 ≤ 2 ^ dw := Nat.pow_le_pow_right (by omega) hw
  have nine : (9 : BitVec dw).toNat = 9 := toNat_literal (n := 9) (by omega)
  rw [ne_eq, ← BitVec.toNat_inj, nine] at h9
  exact ⟨toNat_add_one (by omega), by omega⟩

/-- The successor of a legal phase, as a number, at any width of R8. -/
theorem toNat_nextPhase (hw : 3 ≤ pw) {p : BitVec pw} (h : p.toNat ≤ 7) : (nextPhase p).toNat = (p.toNat + 1) % 8 := by
  have hp : 2 ^ 3 ≤ 2 ^ pw := Nat.pow_le_pow_right (by omega) hw
  unfold nextPhase
  split
  · have : p.toNat = 7 := by omega
    simp [this]
  · rw [toNat_add_one (by omega)]
    omega

end Machine
end Sys2Proof
end

