-- ==== Sys2Proof/Laws/Operands.lean ====
section
/-! SUPPORT. The bits of the operand forms under the constraints of 00_scope.md R8: which bit a line is, and which bit a slot moves. -/

namespace Sys2Proof
namespace Machine

variable {pw dw iw : Nat}

/-- The constraints of an admissible machine on the shifts and the common lines, one by one. -/
theorem admissible_parts {c : Config pw dw iw} (h : c.Admissible = true) :
    (3 ≤ pw ∧ 4 ≤ dw ∧ c.intervalThreshold < 2 ^ iw) ∧ Config.shiftsOk c.groupShift = true ∧ Config.shiftsOk c.slotShift = true ∧ Config.comBitsOk c.comBit = true := by
  simp only [Config.Admissible, Config.widthsOk, Bool.and_eq_true, decide_eq_true_eq] at h
  obtain ⟨⟨⟨⟨⟨⟨hp, hd⟩, hi⟩, hg⟩, hs⟩, hc⟩, -⟩ := h
  exact ⟨⟨hp, hd, hi⟩, hg, hs, hc⟩

/-- The common lines are four different bits of the port. -/
theorem comBit_lt_and_inj {c : Config pw dw iw} (h : c.Admissible = true) :
    (∀ k, c.comBit.get k < 8) ∧ ∀ j k, c.comBit.get j = c.comBit.get k → j = k := by
  have hc := (admissible_parts h).2.2.2
  simp [Config.comBitsOk, Quad.toList] at hc
  obtain ⟨⟨h0, h1, h2, h3⟩, hne⟩ := hc
  constructor
  · intro k
    fin_cases k <;> simpa [Quad.get]
  · intro j k he
    fin_cases j <;> fin_cases k <;> simp [Quad.get] at he ⊢ <;> omega

/-- The shifts are four different even offsets. -/
theorem shift_mem_and_inj {q : Quad Nat} (h : Config.shiftsOk q = true) :
    (∀ k, q.get k = 0 ∨ q.get k = 2 ∨ q.get k = 4 ∨ q.get k = 6) ∧ ∀ j k, q.get j = q.get k → j = k := by
  simp [Config.shiftsOk, Quad.toList] at h
  obtain ⟨⟨h0, h1, h2, h3⟩, hne⟩ := h
  constructor
  · intro k
    fin_cases k <;> simp [Quad.get] <;> omega
  · intro j k he
    fin_cases j <;> fin_cases k <;> simp [Quad.get] at he ⊢ <;> omega

/-- The bit of line k has the bit of line j set exactly when they are the same line. -/
theorem lineBit_getLsbD {c : Config pw dw iw} (h : c.Admissible = true) (j k : Fin 4) :
    (lineBit c k).getLsbD (c.comBit.get j) = decide (j = k) := by
  obtain ⟨hlt, hinj⟩ := comBit_lt_and_inj h
  have hj := hlt j
  have hk := hlt k
  rw [lineBit, onehot, BitVec.getLsbD_shiftLeft, BitVec.getLsbD_one]
  by_cases e : j = k
  · subst e
    simp [hj]
  · have : c.comBit.get j ≠ c.comBit.get k := fun he => e (hinj _ _ he)
    simp [e, hj]
    omega

/-- A slot holds the two bits of the pattern's group at the slot's place, and zeros elsewhere. -/
theorem slot_getLsbD (c : Config pw dw iw) (k d : Fin 4) (p : Byte) {i : Nat} (hi : i < 8) :
    (slot c k d p).getLsbD i = (decide (c.slotShift.get d ≤ i) && decide (i - c.slotShift.get d < 2) &&
      p.getLsbD (c.groupShift.get k + (i - c.slotShift.get d))) := by
  have three : ∀ n, (3#8).getLsbD n = decide (n < 2) := by
    intro n
    by_cases hn : n < 8
    · have : ∀ n : Fin 8, (3#8).getLsbD n = decide (n.val < 2) := by decide
      exact this ⟨n, hn⟩
    · rw [BitVec.getLsbD_of_ge _ _ (by omega)]
      simp
      omega
  rw [slot, group, BitVec.getLsbD_shiftLeft, BitVec.getLsbD_and, BitVec.getLsbD_ushiftRight]
  change (decide (i < 8) && !decide (i < _) && (_ && (3#8).getLsbD _)) = _
  rw [three]
  by_cases h : c.slotShift.get d ≤ i
  · have : ¬ i < c.slotShift.get d := by omega
    simp [hi, h, this, Bool.and_comm]
  · simp [hi, h]

end Machine
end Sys2Proof
end

