-- ==== Sys2Proof/Laws/PerInstr.lean ====
section
/-! SUPPORT. Statements about every operation as syntax, one lemma per constructor. -/

namespace Sys2Proof
namespace Laws
namespace CodeLength

/-- An operation has one code byte when its row of spec/opcode_table.json has the format PHASE8, and no word when the row's encoding is
`none` (30_encoding.md R94, R102). -/
def Statement (i : Instr) : Prop :=
  (encode i).length = if i.format = .phase8 then 1 else 0

theorem com0L : Statement .com0L := rfl
theorem com0H : Statement .com0H := rfl
theorem com1L : Statement .com1L := rfl
theorem com1H : Statement .com1H := rfl
theorem com2L : Statement .com2L := rfl
theorem com2H : Statement .com2H := rfl
theorem com3L : Statement .com3L := rfl
theorem com3H : Statement .com3H := rfl
theorem off (code : Byte) : Statement (.off code) := rfl
theorem tick : Statement .tick := rfl
theorem service : Statement .service := rfl
theorem sleep : Statement .sleep := rfl
theorem reset : Statement .reset := rfl
theorem advance : Statement .advance := rfl
theorem pack (k : Fin 4) : Statement (.pack k) := rfl
theorem lut (v : Digit) : Statement (.lut v) := rfl
theorem count : Statement .count := rfl
theorem incr : Statement .incr := rfl

end CodeLength
end Laws
end Sys2Proof
end

