-- ==== Sys2Proof/Tests/Slice0.lean ====
section
/-! SUPPORT. Tests. The expected results are those of 95_test_vectors.md (its section is named at each), or written out from the rule named.
The second half shows, for each obligation with hypotheses, a state and operands that meet them. -/

namespace Sys2Proof
namespace Machine
namespace Tests

/-! ## Helpers -/

/-- The operation completes in a state of which `p` holds. -/
def after (r : Result) (p : State → Bool) : Bool :=
  match r with
  | .next s => p s
  | .fault _ => false
  | .refused _ => false

/-- The operation stops with this fault. -/
def faults (r : Result) (e : Fault) : Bool :=
  match r with
  | .next _ => false
  | .fault e' => e' == e
  | .refused _ => false

/-- The operation is refused for this reason. -/
def refuses (r : Result) (e : Refusal) : Bool :=
  match r with
  | .next _ => false
  | .fault _ => false
  | .refused e' => e' == e

/-- Cold start with the digits of a number, thousands first as 95_test_vectors.md writes them. -/
def showing (d3 d2 d1 d0 : Digit) : State := { State.reset with digits := ⟨d0, d1, d2, d3⟩ }

/-- SEGBYTE, SEG_DIR, SEG_OUT, COM_DIR, COM_OUT: the columns of the tables of 95_test_vectors.md. -/
def ports (s : State) : List Byte := [s.segByte, s.segDir, s.segOut, s.comDir, s.comOut]

/-- The state after n consumed ticks (itself where the run stops). -/
def ticked (c : Config) (s : State) (n : Nat) : State :=
  match consumedTicks c n s with
  | .next t => t
  | .fault _ => s
  | .refused _ => s

/-- A machine of the narrowest widths that R8 admits, with a threshold of 3 and the switch of R183. -/
def narrow : Config 3 4 2 :=
  { tickPeriodMs := 2, intervalThreshold := 3, segLut := Config.machine.segLut, groupShift := ⟨6, 0, 2, 4⟩, slotShift := ⟨2, 0, 6, 4⟩,
    comBit := ⟨7, 0, 3, 5⟩, overflowSkipsZero := true, floatLevel := 0 }
/-- A machine of wider registers, with a threshold of 300. -/
def wide : Config 16 8 9 :=
  { tickPeriodMs := 2, intervalThreshold := 300, segLut := Config.machine.segLut, groupShift := ⟨0, 2, 4, 6⟩, slotShift := ⟨0, 2, 4, 6⟩,
    comBit := ⟨0, 1, 2, 3⟩, overflowSkipsZero := false, floatLevel := 1 }

/-! ## WellFormed: the one check, at its boundary -/

theorem test_off_below_eight_is_ill_formed : (Instr.off 0).wellFormed = false ∧ (Instr.off 7).wellFormed = false := by decide
theorem test_off_from_eight_is_well_formed : (Instr.off 8).wellFormed = true ∧ (Instr.off 255).wellFormed = true := by decide

/-! ## Decode: the code of every row of spec/opcode_table.json, written from 30_encoding.md R91 -/

theorem test_decode_com0L : decode [0b00000000] = .instr .com0L [] := by decide
theorem test_decode_com0H : decode [0b00000001] = .instr .com0H [] := by decide
theorem test_decode_com1L : decode [0b00000010] = .instr .com1L [] := by decide
theorem test_decode_com1H : decode [0b00000011] = .instr .com1H [] := by decide
theorem test_decode_com2L : decode [0b00000100] = .instr .com2L [] := by decide
theorem test_decode_com2H : decode [0b00000101] = .instr .com2H [] := by decide
theorem test_decode_com3L : decode [0b00000110] = .instr .com3L [] := by decide
theorem test_decode_com3H : decode [0b00000111] = .instr .com3H [] := by decide
theorem test_decode_off_bit3 : decode [0b00001000, 0x12] = .instr (.off 8) [0x12] := by decide
theorem test_decode_off_bit4 : decode [0b00010000] = .instr (.off 16) [] := by decide
theorem test_decode_off_bit5 : decode [0b00100001] = .instr (.off 33) [] := by decide
theorem test_decode_off_bit6 : decode [0b01000000] = .instr (.off 64) [] := by decide
theorem test_decode_off_bit7 : decode [0b10000000] = .instr (.off 128) [] := by decide
theorem test_decode_no_code : decode [] = .rejected .noCode := by decide
/-- EVENT and SUBSTEP rows have no code (30_encoding.md R102). -/
theorem test_no_code_of_event_or_substep : ([.tick, .service, .sleep, .reset, .advance, .pack 3, .lut 9, .count, .incr] : List Instr).all
    (fun i => encode i == [] && i.wellFormed && i.format != .phase8) = true := by decide
/-- 30_encoding.md R108: `n*T` and FRAME are pairs of TICK and SERVICE. -/
theorem test_expand_trace : expandTrace [.event .reset, .consumed 2] = [.reset, .tick, .service, .tick, .service] ∧
    (expandTrace [.frame]).length = 16 := by decide
theorem test_encode_drive_codes : encode .com0L = [0] ∧ encode .com2H = [5] ∧ encode .com3H = [7] ∧ encode (.off 0xC3) = [0xC3] := by decide

/-! ## One step of each operation -/

/-- Section 2.1. -/
theorem test_tick : after (exec .tick State.reset) (fun t => t.ready && t.overruns == []) = true := by decide
theorem test_tick_overrun :
    after (exec .tick { State.reset with ready := true, ticks := 4 }) (fun t => t.ready && t.overruns == [5]) = true := by decide
/-- Section 2.2. -/
theorem test_advance : after (exec .advance { State.reset with phase := 6 }) (fun t => t.phase == 7) = true := by decide
theorem test_advance_above_seven : after (exec .advance { State.reset with phase := 200 }) (fun t => t.phase == 0) = true := by decide
/-- Section 2.3. -/
theorem test_lut : after (exec (.lut 9) State.reset) (fun t => t.returned == some 0xF5) = true := by decide
theorem test_lut_fault : faults (exec (.lut 10) State.reset) (.lutDomain none 10) = true := by decide
/-- Section 2.4. -/
theorem test_pack : after (exec (.pack 0) (showing 1 2 3 4)) (fun t => t.returned == some 0x14) &&
    after (exec (.pack 2) (showing 1 3 5 7)) (fun t => t.returned == some 0x1C) = true := by decide
theorem test_pack_fault : faults (exec (.pack 0) (showing 0 10 0 0)) (.lutDomain (some 2) 10) = true := by decide
/-- Section 2.5. -/
theorem test_com0L : after (exec .com0L (showing 0 0 0 8)) (fun t => ports t == [0x55, 0xFF, 0x55, 0x01, 0x00]) = true := by decide
theorem test_com0H : after (exec .com0H (showing 0 0 0 8)) (fun t => ports t == [0x00, 0xFF, 0xFF, 0x01, 0x01]) = true := by decide
theorem test_com1L : after (exec .com1L (showing 0 0 0 8)) (fun t => ports t == [0xFF, 0xFF, 0xFF, 0x02, 0x00]) = true := by decide
theorem test_com1H : after (exec .com1H (showing 0 0 0 8)) (fun t => ports t == [0x00, 0xFF, 0xFF, 0x02, 0x02]) = true := by decide
theorem test_com2L : after (exec .com2L (showing 0 0 0 8)) (fun t => ports t == [0xAB, 0xFF, 0xAB, 0x04, 0x00]) = true := by decide
theorem test_com2H : after (exec .com2H { State.reset with segByte := 0xAB }) (fun t => ports t == [0xAB, 0xFF, 0x54, 0x04, 0x04]) = true := by
  decide
theorem test_com3L : after (exec .com3L (showing 0 0 0 1)) (fun t => ports t == [0xFE, 0xFF, 0xFE, 0x08, 0x00]) = true := by decide
theorem test_com3H : after (exec .com3H { State.reset with segByte := 0xFE }) (fun t => ports t == [0xFE, 0xFF, 0x01, 0x08, 0x08]) = true := by
  decide
/-- Section 2.5, the pins of COM2L. -/
theorem test_com2L_pins : after (exec .com2L (showing 0 0 0 8)) (fun t =>
    (List.finRange 8).map (segPin t) == [.H, .H, .L, .H, .L, .H, .L, .H] &&
    (List.finRange 4).map (comPin Config.machine t) == [.Z, .Z, .L, .Z]) = true := by decide
/-- Section 2.6. -/
theorem test_off : after (exec (.off 0x80) { State.reset with segByte := 0xAB, segDir := 0xFF, segOut := 0x54, comDir := 4, comOut := 4 })
    (fun t => ports t == [0xAB, 0x00, 0x54, 0x00, 0x04]) = true := by decide
/-- Section 2.7. -/
theorem test_count : after (exec .count { showing 0 1 9 9 with interval := 99 })
    (fun t => t.interval == 0 && t.digits == ⟨0, 0, 2, 0⟩) = true := by decide
theorem test_count_off_threshold : after (exec .count { State.reset with interval := 100 })
    (fun t => t.interval == 101 && t.digits == ⟨0, 0, 0, 0⟩) = true := by decide
/-- Section 2.8. -/
theorem test_incr : after (exec .incr (showing 9 9 9 9)) (fun t => t.digits == ⟨0, 0, 0, 0⟩) &&
    after (exec .incr (showing 1 2 9 9)) (fun t => t.digits == ⟨0, 0, 3, 1⟩) = true := by decide
theorem test_incr_above_nine : after (exec .incr (showing 0 0 0 10)) (fun t => t.digits == ⟨11, 0, 0, 0⟩) &&
    after (exec .incr (showing 0 0 0 15)) (fun t => t.digits == ⟨0, 0, 0, 0⟩) = true := by decide
/-- Section 2.8, the switch. -/
theorem test_incr_skips_zero : after (incr { Config.machine with overflowSkipsZero := true } (showing 9 9 9 9))
    (fun t => t.digits == ⟨1, 0, 0, 0⟩) = true := by decide
/-- P3, tick 105. -/
theorem test_service : after (exec .service { showing 0 0 0 1 with ready := true, phase := 7, interval := 4, segByte := 0xFE })
    (fun t => t.phase == 0 && !t.ready && t.interval == 5 && ports t == [0x54, 0xFF, 0x54, 0x01, 0x00]) = true := by decide
/-- Section 2.9. -/
theorem test_service_refused : refuses (exec .service State.reset) .serviceNotReady = true := by decide
/-- 44_service_and_sleep.md R205, R206. -/
theorem test_sleep : after (exec .sleep State.reset) (fun t => t.halted && t.gie && t.sleepEn && t.phase == 7 && t.interval == 0) = true := by
  decide
theorem test_sleep_pending : after (exec .sleep { State.reset with ready := true }) (fun t => !t.halted && !t.sleepEn && t.ready) = true := by
  decide
/-- Section 2.10. -/
theorem test_reset : after (exec .reset { showing 9 12 3 4 with
      phase := 200, ready := true, interval := 77, segByte := 0x5A, segDir := 0xFF, segOut := 0xFF, comDir := 0xFF, comOut := 0xFF })
    (fun t => t == State.reset) = true := by decide

/-! ## The step -/

/-- A step after withFetchWord runs the word's operation. -/
theorem test_step_runs_word : after (step ((showing 0 0 0 8).withFetchWord 8 4))
    (fun t => t.segByte == 0xAB && t.schedule == []) = true := by decide
/-- 60_exceptions.md R226, R235: the pending event is taken once interrupts are enabled. -/
theorem test_step_takes_interrupt : after (step { State.reset with timerEvent := true, gie := true, halted := true })
    (fun t => t.ready && !t.timerEvent && !t.halted) = true := by decide
/-- 60_exceptions.md R226: a masked event waits, and the main loop goes on. -/
theorem test_step_masked : after (step { State.reset with timerEvent := true }) (fun t => !t.ready && t.timerEvent) = true := by decide
/-- 44_service_and_sleep.md R205: the halt is followed by the clear of SLEEP_EN. -/
theorem test_step_wakes : after (step { State.reset with work := [.sleepEn false], sleepEn := true })
    (fun t => !t.sleepEn && t.work == []) = true := by decide
/-- P7: the trace goes on past the refused SERVICE, to the state of P1 tick 2 with the mark set. -/
theorem test_program_p7 : after (runProgram State.reset [.event .reset, .event .tick, .event .tick, .event .service, .event .service, .consumed 1])
    (fun t => t.schedule == [] && t.phase == 1 && t.interval == 2 && ports t == [0x55, 0xFF, 0xAA, 0x01, 0x01] && overrunMark t) = true := by
  decide
/-- Section 2.9: a refused SERVICE leaves the state as it was. -/
theorem test_program_refused : after (runProgram State.reset [.event .service]) (fun t => t == State.reset) = true := by decide
/-- Section 2.11, case (d). -/
theorem test_program_sleep : after (runProgram State.reset [.event .tick, .event .service, .event .tick, .event .sleep, .event .service])
    (fun t => t.phase == 1 && !overrunMark t) = true := by decide
/-- 43_bcd_counter.md R182 at other widths: a digit of 15 wraps at 4 bits (section 2.8) and not at 8. -/
theorem test_incr_wide : after (incr Config.machine (showing 0 0 0 15)) (fun t => t.digits.q0 == 0) &&
    (match incr wide { State.coldStart with digits := ⟨15, 0, 0, 0⟩ } with
      | .next t => t.digits.q0 == 16
      | .fault _ => false
      | .refused _ => false) = true := by decide
/-- 43_bcd_counter.md R184, 70_reset_and_hazards.md R280: 16 ms a frame, 4 ms a line, 200 ms a number, 2000 s a full count. -/
theorem test_durations : Config.machine.frameMs = 16 ∧ Config.machine.driveMs = 4 ∧ Config.machine.numberStepMs = 200 ∧
    Config.machine.fullCountMs = 2000000 := by decide

/-! ## Witnesses: for each obligation with hypotheses, a state and operands that meet them all -/

/-- A state inside the service of phase 0 with only its last write to make. -/
def lastWrite : State := { State.reset with ready := true, work := .clearReady :: (sleepEntry ++ sleepExit) }
/-- A processor halted after its sleep sequence. -/
def asleep : State := { State.reset with halted := true, gie := true, sleepEn := true, work := sleepExit }
/-- Cold start with a tick pending. -/
def pending : State := { State.reset with ready := true }
/-- The state after the first consumed tick. -/
def first : State := ticked Config.machine State.reset 1

theorem witness_DecodeInvertsEncode : (Instr.off 8).wellFormed = true ∧ (Instr.off 255).wellFormed = true ∧
    (Instr.off 8).format = .phase8 ∧ (Instr.com3H).wellFormed = true ∧ Instr.com3H.format = .phase8 := by decide
theorem witness_EveryCodeSelectsOneOperation : (Instr.com3H).wellFormed = true ∧ encode .com3H = [7] ∧
    (Instr.off 8).wellFormed = true ∧ encode (.off 8) = [8] := by decide
theorem witness_PhaseCodeFields : (7 : Byte).toNat ≤ 7 ∧ (7 : Byte).toNat % 2 = 1 ∧ 8 ≤ (8 : Byte).toNat := by decide
theorem witness_StepRunsTheSuppliedOperation : decodeTableWord 8 255 = some (.off 255) ∧
    ({ State.reset with schedule := [.emit 255] }).schedule = [.emit 255] ∧
    ({ State.reset with schedule := [.service] }).schedule = [.service] ∧
    mainLoopWaits { State.reset with schedule := [.service] } = false ∧ mainLoopWaits { asleep with schedule := [.sleep] } = false := by decide
theorem witness_StepMovesOnItsOwn : State.reset.schedule = [] ∧
    ({ lastWrite with schedule := [.own] }).schedule = [.own] ∧ ({ lastWrite with schedule := [.timerFires] }).schedule = [.timerFires] ∧
    mainLoopWaits { lastWrite with schedule := [.service] } = true ∧
    mainLoopWaits { asleep with timerEvent := true, schedule := [.sleep] } = true := by decide
theorem witness_TickSetsReadyOnly : State.reset.ready = false ∧ pending.ready = true := by decide
theorem witness_InterruptEffectIsReady : ({ asleep with timerEvent := true }).schedule = [] ∧
    interruptTaken { asleep with timerEvent := true } = true ∧ interruptTaken { lastWrite with timerEvent := true, gie := true } = true := by
  decide
theorem witness_MaskedTickWaits : ({ State.reset with schedule := [.timerFires] }).schedule = .timerFires :: [] ∧
    ({ State.reset with schedule := [.timerFires] }).timerEvent = false ∧
    ({ State.reset with timerEvent := true, ticks := 1, schedule := [.timerFires] }).timerEvent = true := by decide
theorem witness_WakingClearsSleepEnable : ∃ t u ws, State.reset.work = [] ∧ State.reset.schedule = [] ∧ exec .sleep State.reset = .next t ∧
    t.halted = true ∧ exec .tick t = .next u ∧ serviceWrites Config.machine u = .ok ws := ⟨_, _, _, rfl, rfl, rfl, rfl, rfl, rfl⟩
theorem witness_CoalescedTicks : ∃ t, andThen (exec .tick State.reset) (exec .service) = .next t := ⟨_, rfl⟩
theorem witness_TickInsideServiceIsLost : ∃ t, lastWrite.ready = true ∧ .clearReady ∈ lastWrite.work ∧ exec .tick lastWrite = .next t :=
  ⟨_, rfl, by decide, rfl⟩
theorem witness_TickBeforeTheHaltIsNotLost : ∀ n ≤ 2, ∃ s t : State, s.ready = false ∧ s.halted = false ∧
    s.work = (sleepEntry ++ sleepExit).drop n ∧ exec .tick s = .next t :=
  fun n _ => ⟨{ State.reset with work := (sleepEntry ++ sleepExit).drop n }, _, rfl, rfl, rfl, rfl⟩
/-- Also for ServiceRefusalAndExample. -/
theorem witness_ServiceIsItsSubstepsInOrder : pending.ready = true ∧ State.reset.ready = false := by decide
theorem witness_ServiceCompletes : pending.ready = true ∧ digitsOk pending.digits ∧ codeHigh (nextPhase (0 : Byte)) = true ∧
    ({ pending with interval := 98 }).interval + 1 ≠ 100 ∧ ({ pending with interval := 99 }).interval + 1 = 100 := by decide
theorem witness_LookupFaultNamesTheDigit : 9 < ((showing 0 0 0 10).digits.get 0).toNat ∧ (∀ e, e < 0 → ((showing 0 0 0 10).digits.get e).toNat ≤ 9) ∧
    9 < ((showing 15 9 9 9).digits.get 3).toNat ∧ (∀ e, e < 3 → ((showing 15 9 9 9).digits.get e).toNat ≤ 9) ∧
    ({ showing 15 9 9 9 with ready := true }).ready = true ∧ codeHigh (nextPhase (7 : Byte)) = false := by decide
theorem witness_SleepKeepsTheBlock : ∃ u, State.reset.ready = false ∧ asleep.halted = true ∧ asleep.schedule = [] ∧ step asleep = .next u ∧
    interruptTaken asleep = false := ⟨_, rfl, rfl, rfl, rfl, rfl⟩
theorem witness_SleepEndsAtOnceOnAPendingTick : pending.ready = true := by decide
theorem witness_OnlyTheTickWakes : ∃ t, asleep.halted = true ∧ asleep.schedule = [] ∧
    step { asleep with timerEvent := true } = .next t ∧ powerState t = .running := ⟨_, rfl, rfl, rfl, rfl⟩
theorem witness_NoWakeupIsLost : ∃ t u, NoLostWakeup { lastWrite with ready := false, work := [.halt] } ∧
    step { lastWrite with ready := false, work := [.halt] } = .next t ∧ t.halted = true ∧ step t = .next u := ⟨_, _, by decide, rfl, rfl, rfl⟩
theorem witness_AdvanceStepsThePhase : ({ State.reset with phase := 6 }).phase.toNat < 7 ∧ 7 ≤ State.reset.phase.toNat := by decide
theorem witness_PhaseIsWrittenByAdvanceAndReset : (∃ t, exec .service pending = .next t) ∧ (∃ t, exec .count pending = .next t) ∧
    (6 : Byte).toNat < 7 := ⟨⟨_, rfl⟩, ⟨_, rfl⟩, by decide⟩
/-- A frame from cold start; also for FrameDcSum and FrameDriveSquares. -/
theorem witness_FrameVisitsEveryPhaseInOrder : ∃ t : Nat → State, (t 0).phase = 7 ∧ Config.machine.Admissible = true ∧
    Config.machine.floatLevel = 1 ∧ ∀ n < 8, consumedTick Config.machine (t n) = .next (t (n + 1)) := by
  refine ⟨ticked Config.machine State.reset, rfl, by decide, rfl, fun n hn => ?_⟩
  have h : n = 0 ∨ n = 1 ∨ n = 2 ∨ n = 3 ∨ n = 4 ∨ n = 5 ∨ n = 6 ∨ n = 7 := by omega
  rcases h with rfl | rfl | rfl | rfl | rfl | rfl | rfl | rfl <;> rfl
theorem witness_LookupReadsTheTable : (9 : Digit).toNat ≤ 9 ∧ 9 < (10 : Digit).toNat := by decide
theorem witness_RouterMovesEveryBit : Config.machine.Admissible = true ∧ 1 < 2 := by decide
/-- Also for IncrAddsOneToTheNumber. -/
theorem witness_PackReturnsTheRoutedByte : digitsOk (showing 9 9 9 9).digits ∧ digitsOk (showing 0 0 0 0).digits := by decide
theorem witness_LowAssertEndState : digitsOk (showing 9 9 9 9).digits := by decide
theorem witness_DrivePins : ∃ t u, Config.machine.Admissible = true ∧ low Config.machine 3 State.reset = .next t ∧
    high Config.machine 3 State.reset = .next u := ⟨_, _, by decide, rfl, rfl⟩
theorem witness_OddPhasesReadNoDigit : ∃ t, exec (lowInstr 3) State.reset = .next t := ⟨_, rfl⟩
theorem witness_EmitIsIdempotent : ∃ t t' u u' v v', exec (decodePhase 6) State.reset = .next t ∧ exec (decodePhase 6) pending = .next t' ∧
    codeHigh (6 : Byte) = false ∧ pending.digits = State.reset.digits ∧ exec (decodePhase 7) State.reset = .next u ∧
    exec (decodePhase 7) (showing 1 2 3 4) = .next u' ∧ codeHigh (7 : Byte) = true ∧ (showing 1 2 3 4).segByte = State.reset.segByte ∧
    exec (decodePhase 8) State.reset = .next v ∧ exec (decodePhase 8) first = .next v' ∧ 8 ≤ (8 : Byte).toNat :=
  ⟨_, _, _, _, _, _, rfl, rfl, rfl, rfl, rfl, rfl, rfl, rfl, rfl, rfl, by decide⟩
/-- Also for OneLineDrivenAfterEveryService. -/
theorem witness_ServiceDrivesThePorts : ∃ t, Config.machine.Admissible = true ∧ service Config.machine pending = .next t := ⟨_, by decide, rfl⟩
theorem witness_OneComputationPerPair : ∃ t u, service Config.machine pending = .next t ∧ codeHigh t.phase = false ∧
    service Config.machine { first with ready := true } = .next u ∧ codeHigh u.phase = true := ⟨_, _, rfl, rfl, rfl, rfl⟩
theorem witness_AcBalance : ∃ t u, Config.machine.Admissible = true ∧ consumedTick Config.machine State.reset = .next t ∧ codeHigh t.phase = false ∧
    consumedTick Config.machine t = .next u := ⟨_, _, by decide, rfl, rfl, rfl⟩
theorem witness_OneLineDrivenAfterEveryService : ∃ t, Config.machine.Admissible = true ∧
    service Config.machine { first with ready := true } = .next t := ⟨_, by decide, rfl⟩
theorem witness_NeverTwoLinesDriven : ∃ ws, Config.machine.Admissible = true ∧ atMostOneLineDriven Config.machine first ∧
    comPin Config.machine first 0 = .L ∧ emitWrites Config.machine (2 : Byte) first = .ok ws := by
  refine ⟨_, by decide, ?_, rfl, rfl⟩
  unfold atMostOneLineDriven
  decide
theorem witness_PinStatesInsideAService : ∃ b, Config.machine.Admissible = true ∧ (0 : Fin 4) ≠ 1 ∧
    packDigits Config.machine 1 State.reset.digits = .ok b ∧
    ({ State.reset with segDir := 0xFF, comDir := 1, comOut := 1 }).segDir = 0xFF ∧ lineBit Config.machine 0 = 1 ∧
    State.reset.segDir = 0x00 ∧ State.reset.comDir = 0x00 ∧
    first.segDir = 0xFF ∧ first.segOut = first.segByte ∧ first.comDir = lineBit Config.machine 0 ∧ first.comOut = 0x00 :=
  ⟨_, by decide, by decide, rfl, rfl, rfl, rfl, rfl, rfl, rfl, rfl, rfl⟩
theorem witness_CountStepsTheInterval : ({ State.reset with interval := 100 }).interval ≠ 99 ∧
    ({ State.reset with interval := 255 }).interval ≠ 99 ∧ ({ State.reset with interval := 99 }).interval = 99 := by decide
theorem witness_OverflowFollowsTheSwitch : Config.machine.Admissible = true ∧ (showing 9 9 9 9).digits = ⟨9, 9, 9, 9⟩ := by decide
theorem witness_HundredthTickStepsTheNumber : Contract Config.machine (showing 9 9 9 8) ∧ (showing 9 9 9 8).interval = 0 ∧
    number (showing 9 9 9 8).digits < 9999 ∧ Contract Config.machine State.reset := by decide
theorem witness_NumberAfterConsumedTicks : Contract Config.machine { showing 9 9 9 9 with phase := 6, interval := 99 } := by decide
theorem witness_OperationsWriteOnlyTheirRegisters : ∃ t, exec .com3H State.reset = .next t ∧ mayWrite .com3H .segByte = false := ⟨_, rfl, rfl⟩
theorem witness_OperationsKeepTheHost : ∃ t, exec .service pending = .next t ∧ reachesHost .service = false ∧
    (∀ k, Instr.service ≠ .pack k) ∧ (∀ v, Instr.service ≠ .lut v) ∧ Instr.service ≠ .reset :=
  ⟨_, rfl, rfl, by decide, by decide, by decide⟩
theorem witness_ContextsKeepToTheirRegisters : ∃ t u, exec .tick asleep = .next t ∧ contextOf .tick = .interrupt ∧
    exec .service pending = .next u ∧ contextOf .service = .mainLoop := ⟨_, _, rfl, rfl, rfl, rfl⟩
theorem witness_ContractIsKeptByEveryStep : ∃ t, Inv Config.machine lastWrite ∧ step lastWrite = .next t := ⟨_, by decide, rfl⟩
theorem witness_PortsStayDriven : ∃ t, DrivenInv Config.machine { first with schedule := [.tick, .service] } ∧
    step { first with schedule := [.tick, .service] } = .next t := ⟨_, by decide, rfl⟩
theorem witness_OnlyAnUnreadyServiceIsRefused : Inv Config.machine { first with schedule := [.service] } ∧
    (∀ p, ({ first with schedule := [.service, .emit 8] }).schedule.head? ≠ some (.emit p)) ∧
    refuses (step { first with schedule := [.service] }) .serviceNotReady = true := by
  refine ⟨by decide, ?_, by decide⟩
  simp
theorem witness_MachineRunsForEver : Inv Config.machine State.reset ∧ Inv Config.machine asleep ∧ asleep.schedule = [] := by decide
theorem witness_WriteByWriteReachesTheEvents : ∃ v w, pending.schedule = [] ∧ pending.work = [] ∧ pending.halted = false ∧
    pending.timerEvent = false ∧ pending.ready = true ∧ andThen (exec .service pending) (exec .sleep) = .next v ∧
    State.reset.ready = false ∧ exec .sleep State.reset = .next w := ⟨_, _, rfl, rfl, rfl, rfl, rfl, rfl, rfl, rfl⟩
theorem witness_OwnRunConsumesEveryTick : Inv Config.machine asleep ∧ Asleep asleep ∧ Asleep { asleep with phase := 3, interval := 99 } := by
  decide
theorem witness_ProgramRunsToItsEnd : ∃ t, ({ first with schedule := [.service] }).schedule = [.service] ∧
    mainLoopWaits { first with schedule := [.service] } = false ∧ first.ready = false ∧ Inv Config.machine asleep ∧
    (∀ p, Event.emit p ∉ expandTrace [.event .sleep, .consumed 1]) ∧ Event.own ∉ expandTrace [.event .sleep, .event (.emit 8)] ∧
    State.reset.work = [] ∧ consumedTicks Config.machine 2 State.reset = .next t :=
  ⟨_, rfl, rfl, rfl, by decide, by decide, by decide, rfl, rfl⟩
/-- The narrowest widths of R8 for a threshold of 3, and wide ones for a threshold above 255. -/
theorem witness_ServiceCountsAtAnyWidth : narrow.Admissible = true ∧ wide.Admissible = true ∧
    Contract narrow { State.coldStart with ready := true, interval := 2, digits := ⟨9, 9, 9, 9⟩ } ∧
    Contract wide { State.coldStart with ready := true, interval := 299 } := by decide

end Tests
end Machine
end Sys2Proof
end

/-! SUPPORT. The step by the head of the schedule, and the run as an iterated step. -/

namespace Sys2Proof
namespace Machine

/-! The step, by what the next move is. -/

theorem step_of_own {s t : State} (h : nextMove s = .own t) : step s = ownMove Config.machine t := by
  simp [step, h]

theorem step_of_firing {s t : State} (h : nextMove s = .firing t) : step s = .next (fireTimer t) := by
  simp [step, h]

/-- With nothing supplied, the step is the machine's own move (log 22). -/
theorem step_of_schedule_nil {s : State} (h : s.schedule = []) : step s = ownMove Config.machine s :=
  step_of_own (by simp [nextMove, h])

/-- Settles O6, by the head of the schedule. -/
theorem stepMovesOnItsOwn : Obligations.StepMovesOnItsOwn := by
  refine ⟨fun s h => step_of_schedule_nil h, fun s e rest h => ⟨?_, ?_, ?_⟩⟩
  · rintro rfl
    exact step_of_own (by simp [nextMove, h])
  · rintro rfl
    exact step_of_firing (by simp [nextMove, h])
  · rintro (rfl | rfl) hw
    · exact step_of_own (by simp [nextMove, h, hw])
    · exact step_of_own (by simp [nextMove, h, hw])

/-! The run. -/

/-- The run of the core (`Host.Core.run`), typed as a run of the machine so that its steps compose by `andThen`. -/
def runFor : Nat → State → Result := Host.Core.run core

@[simp] theorem runFor_zero (s : State) : runFor 0 s = .next s := rfl

theorem runFor_succ (n : Nat) (s : State) : runFor (n + 1) s = andThen (step s) (runFor n) := by
  simp only [runFor, Host.Core.run, show core.step s = step s from rfl]
  cases step s <;> rfl

theorem runFor_succ_of_step {s t : State} (h : step s = .next t) (n : Nat) : runFor (n + 1) s = runFor n t := by
  rw [runFor_succ, h, andThen_next]

theorem runFor_add (m n : Nat) (s : State) : runFor (m + n) s = andThen (runFor m s) (runFor n) := by
  induction m generalizing s with
  | zero => simp
  | succ m ih =>
    rw [Nat.add_right_comm, runFor_succ, runFor_succ]
    cases step s with
    | next t => exact ih t
    | fault e => rfl
    | refused e => rfl

/-- A property from which every step completes and keeps it holds for ever: the run completes whatever its length. -/
theorem runFor_of_progress {P : State → Prop} (h : ∀ s, P s → ∃ t, step s = .next t ∧ P t) (n : Nat) {s : State} (hs : P s) :
    ∃ t, runFor n s = .next t ∧ P t := by
  induction n generalizing s with
  | zero => exact ⟨s, rfl, hs⟩
  | succ n ih =>
    obtain ⟨u, hu, hPu⟩ := h s hs
    obtain ⟨t, ht, hPt⟩ := ih hPu
    exact ⟨t, (runFor_succ_of_step hu n).trans ht, hPt⟩

end Machine
end Sys2Proof

/-! SUPPORT. The count at any admissible widths: INCR on the digits, COUNT at and below the threshold. -/

namespace Sys2Proof
namespace Machine

variable {pw dw iw : Nat}

/-- The digits after INCR (43_bcd_counter.md R182, R183): the carry passes each digit that was 9, and past the thousands the switch
decides between 0000 and 0001. -/
def incremented (c : Config pw dw iw) (x : Quad (BitVec dw)) : Quad (BitVec dw) :=
  if x.q0 ≠ 9 then { x with q0 := x.q0 + 1 }
  else if x.q1 ≠ 9 then { x with q0 := 0, q1 := x.q1 + 1 }
  else if x.q2 ≠ 9 then { x with q0 := 0, q1 := 0, q2 := x.q2 + 1 }
  else if x.q3 ≠ 9 then { q0 := 0, q1 := 0, q2 := 0, q3 := x.q3 + 1 }
  else { q0 := if c.overflowSkipsZero then 1 else 0, q1 := 0, q2 := 0, q3 := 0 }

/-- INCR's accesses take the digits to `incremented`, and change nothing else, at any width of R8. -/
theorem performAll_incrWrites_eq (hw : 4 ≤ dw) (c : Config pw dw iw) (s : State pw dw iw) :
    performAll s (incrWrites c s.digits) = { s with digits := incremented c s.digits } := by
  simp only [incrWrites, incremented, carryFrom_add_one hw, ite_not]
  split_ifs <;> simp [Quad.set]

/-- Decimal digits show 9999 exactly when each of them is 9. -/
theorem number_eq_9999_iff (hw : 4 ≤ dw) {x : Quad (BitVec dw)} (h : digitsOk x) :
    number x = 9999 ↔ x = ⟨9, 9, 9, 9⟩ := by
  have wide : 2 ^ 4 ≤ 2 ^ dw := Nat.pow_le_pow_right (by omega) hw
  have nine : (9 : BitVec dw).toNat = 9 := toNat_literal (n := 9) (by omega)
  obtain ⟨x0, x1, x2, x3⟩ := x
  obtain ⟨h0, h1, h2, h3⟩ := h
  simp only at h0 h1 h2 h3
  simp only [number, Quad.mk.injEq, ← BitVec.toNat_inj, nine]
  omega

/-- INCR on a decimal number below 9999 adds one and leaves decimal digits: the carry ends at the lowest digit that is not 9. -/
theorem incremented_of_ne_9999 (hw : 4 ≤ dw) (c : Config pw dw iw) {x : Quad (BitVec dw)} (h : digitsOk x)
    (hx : x ≠ ⟨9, 9, 9, 9⟩) : digitsOk (incremented c x) ∧ number (incremented c x) = number x + 1 := by
  have wide : 2 ^ 4 ≤ 2 ^ dw := Nat.pow_le_pow_right (by omega) hw
  have zero : (0 : BitVec dw).toNat = 0 := BitVec.toNat_zero
  have nine : (9 : BitVec dw).toNat = 9 := toNat_literal (n := 9) (by omega)
  obtain ⟨x0, x1, x2, x3⟩ := x
  obtain ⟨h0, h1, h2, h3⟩ := h
  simp only at h0 h1 h2 h3
  simp only [incremented, digitsOk, number, ite_not]
  by_cases c0 : x0 = 9
  case neg =>
    obtain ⟨e, le⟩ := toNat_add_one_of_ne_nine hw h0 c0
    simp only [c0, if_false, e]
    omega
  by_cases c1 : x1 = 9
  case neg =>
    obtain ⟨e, le⟩ := toNat_add_one_of_ne_nine hw h1 c1
    simp only [c0, c1, if_true, if_false, e, nine, zero]
    omega
  by_cases c2 : x2 = 9
  case neg =>
    obtain ⟨e, le⟩ := toNat_add_one_of_ne_nine hw h2 c2
    simp only [c0, c1, c2, if_true, if_false, e, nine, zero]
    omega
  have c3 : x3 ≠ 9 := fun c3 => hx (by rw [c0, c1, c2, c3])
  obtain ⟨e, le⟩ := toNat_add_one_of_ne_nine hw h3 c3
  simp only [c0, c1, c2, c3, if_true, if_false, e, nine, zero]
  omega

/-- INCR on 9999 leaves 0000, or 0001 with the switch (43_bcd_counter.md R183). -/
theorem incremented_9999 (c : Config pw dw iw) :
    incremented c ⟨9, 9, 9, 9⟩ = ⟨if c.overflowSkipsZero then 1 else 0, 0, 0, 0⟩ := by
  simp [incremented]

/-- INCR on decimal digits leaves decimal digits, and the next number. -/
theorem incremented_spec (hw : 4 ≤ dw) (c : Config pw dw iw) {x : Quad (BitVec dw)} (h : digitsOk x) :
    digitsOk (incremented c x) ∧ number (incremented c x) =
      if number x = 9999 then (if c.overflowSkipsZero then 1 else 0) else number x + 1 := by
  by_cases hx : x = ⟨9, 9, 9, 9⟩
  · have one : 1 % 2 ^ dw = 1 := Nat.mod_eq_of_lt (Nat.one_lt_two_pow (by omega))
    rw [if_pos ((number_eq_9999_iff hw h).2 hx), hx, incremented_9999]
    cases c.overflowSkipsZero <;> simp [digitsOk, number, one]
  · rw [if_neg fun e => hx ((number_eq_9999_iff hw h).1 e)]
    exact incremented_of_ne_9999 hw c h hx

/-- COUNT below the threshold steps INTERVAL, and nothing else. -/
theorem performAll_countWrites_of_lt {c : Config pw dw iw} {s : State pw dw iw} (hc : c.Admissible = true)
    (h : s.interval.toNat + 1 < c.intervalThreshold) :
    performAll s (countWrites c s) = { s with interval := s.interval + 1 } ∧ (s.interval + 1).toNat = s.interval.toNat + 1 := by
  obtain ⟨⟨-, -, hi⟩, -⟩ := admissible_parts hc
  have e := toNat_add_one (x := s.interval) (by omega)
  have below : intervalReached c (s.interval + 1) = false := by
    rw [intervalReached, e, beq_eq_false_iff_ne]
    omega
  exact ⟨by rw [countWrites, below]; rfl, e⟩

/-- COUNT at the threshold takes INTERVAL to 0 and the digits one further, and changes nothing else. -/
theorem performAll_countWrites_of_eq {c : Config pw dw iw} {s : State pw dw iw} (hc : c.Admissible = true)
    (h : s.interval.toNat + 1 = c.intervalThreshold) :
    performAll s (countWrites c s) = { s with interval := 0, digits := incremented c s.digits } := by
  obtain ⟨⟨-, hd, hi⟩, -⟩ := admissible_parts hc
  have reached : intervalReached c (s.interval + 1) = true := by
    rw [intervalReached, toNat_add_one (by omega), h, beq_self_eq_true]
  rw [countWrites, if_pos reached]
  exact performAll_incrWrites_eq hd c { s with interval := 0 }

/-- What a SERVICE leaves in the registers that the contract speaks of, and in READY. -/
theorem performAll_serviceWrites_registers {c : Config pw dw iw} {s : State pw dw iw} {ws : List (Write pw dw iw)}
    (h : serviceWrites c s = .ok ws) :
    (performAll s ws).phase = nextPhase s.phase ∧ (performAll s ws).ready = false ∧
      (performAll s ws).interval = (performAll s (countWrites c s)).interval ∧
      (performAll s ws).digits = (performAll s (countWrites c s)).digits := by
  rcases performAll_serviceWrites h with ⟨-, e⟩ | ⟨-, b, -, e⟩
  · rw [e]
    exact ⟨rfl, rfl, rfl, rfl⟩
  · rw [e]
    exact ⟨rfl, rfl, rfl, rfl⟩

/-- Within the contract a SERVICE keeps the contract and counts: the phase modulo 8, INTERVAL modulo the threshold, and the number when
the threshold is reached (10_state.md R42, 43_bcd_counter.md R180). -/
theorem performAll_serviceWrites_counts {c : Config pw dw iw} {s : State pw dw iw} {ws : List (Write pw dw iw)}
    (hc : c.Admissible = true) (hs : Contract c s) (h : serviceWrites c s = .ok ws) :
    Contract c (performAll s ws) ∧ (performAll s ws).phase.toNat = (s.phase.toNat + 1) % 8 ∧
      (performAll s ws).interval.toNat = (s.interval.toNat + 1) % c.intervalThreshold ∧
      (s.interval.toNat + 1 < c.intervalThreshold → (performAll s ws).digits = s.digits) ∧
      (s.interval.toNat + 1 = c.intervalThreshold → number (performAll s ws).digits =
        if number s.digits = 9999 then (if c.overflowSkipsZero then 1 else 0) else number s.digits + 1) := by
  obtain ⟨⟨hpw, hdw, -⟩, -⟩ := admissible_parts hc
  obtain ⟨hp, hd, hi⟩ := hs
  obtain ⟨ep, -, ei, ed⟩ := performAll_serviceWrites_registers h
  have phase := toNat_nextPhase hpw hp
  rw [Contract, ep, ei, ed, phase]
  rcases Nat.lt_or_eq_of_le (Nat.succ_le_of_lt hi) with lt | eq
  · obtain ⟨ec, e⟩ := performAll_countWrites_of_lt hc lt
    rw [ec]
    simp only [e]
    exact ⟨⟨by omega, hd, lt⟩, trivial, (Nat.mod_eq_of_lt lt).symm, fun _ => trivial, fun he => by omega⟩
  · rw [performAll_countWrites_of_eq hc eq]
    obtain ⟨ok, num⟩ := incremented_spec hdw c hd
    have zero : (0 : BitVec iw).toNat = 0 := BitVec.toNat_zero
    simp only [zero]
    exact ⟨⟨by omega, ok, by omega⟩, trivial, by rw [← eq, Nat.mod_self], fun hl => by omega, fun _ => num⟩

/-- Settles O49: the SERVICE's accesses can be computed within the contract, and `performAll_serviceWrites_counts` says what they leave. -/
theorem serviceCountsAtAnyWidth : Obligations.ServiceCountsAtAnyWidth := by
  intro pw dw iw c s hc hs hr
  obtain ⟨ws, hws⟩ := serviceWrites_ok (c := c) (s := s) (.inr hs.2.1)
  obtain ⟨keeps, phase, interval, below, reached⟩ := performAll_serviceWrites_counts hc hs hws
  exact ⟨performAll s ws, service_eq_next.2 ⟨hr, ws, hws, rfl⟩, keeps, (performAll_serviceWrites_registers hws).2.1,
    phase, interval, below, reached⟩

end Machine
end Sys2Proof

/-! SUPPORT. The loop body, and the invariant along the machine's own moves. -/

namespace Sys2Proof
namespace Machine

variable {pw dw iw : Nat}

/-- A loop body is the SERVICE's accesses when READY is 1, none when it is 0, and then the sleep sequence. -/
theorem loopBody_eq_ok {c : Config pw dw iw} {s : State pw dw iw} {body : List (Write pw dw iw)} :
    loopBody c s = .ok body ↔ ∃ ws, body = ws ++ sleepEntry ++ sleepExit ∧
      ((s.ready = true ∧ serviceWrites c s = .ok ws) ∨ (s.ready = false ∧ ws = [])) := by
  cases hr : s.ready
  · simp [loopBody, serviceEnabled, hr, bind, Except.bind, pure, Except.pure, eq_comm]
  · rcases h : serviceWrites c s with e | ws <;>
      simp [loopBody, serviceEnabled, hr, h, bind, Except.bind, pure, Except.pure, eq_comm]

/-- A loop body can be begun when the digits are decimal. -/
theorem loopBody_ok {c : Config pw dw iw} {s : State pw dw iw} (h : digitsOk s.digits) : ∃ body, loopBody c s = .ok body := by
  cases hr : s.ready
  · exact ⟨_, loopBody_eq_ok.2 ⟨[], rfl, .inr ⟨hr, rfl⟩⟩⟩
  · obtain ⟨ws, hws⟩ := serviceWrites_ok (c := c) (.inr h)
    exact ⟨_, loopBody_eq_ok.2 ⟨ws, rfl, .inl ⟨hr, hws⟩⟩⟩

/-- A loop body begun within the contract ends within it. -/
theorem contract_performAll_loopBody {c : Config pw dw iw} {s : State pw dw iw} {body : List (Write pw dw iw)}
    (hc : c.Admissible = true) (hs : Contract c s) (h : loopBody c s = .ok body) : Contract c (performAll s body) := by
  obtain ⟨ws, rfl, ⟨-, hws⟩ | ⟨-, rfl⟩⟩ := loopBody_eq_ok.1 h
  · rw [List.append_assoc, performAll_append, contract_performAll_sleep]
    exact (performAll_serviceWrites_counts hc hs hws).1
  · exact (contract_performAll_sleep c s).2 hs

/-- The accesses still to be made are no argument of an access. -/
theorem performWrite_with_work (s : State pw dw iw) (w : Write pw dw iw) (ws : List (Write pw dw iw)) :
    performWrite { s with work := ws } w = { performWrite s w with work := ws } := by
  cases w <;> rfl

/-- No access of a running processor loses a wake-up: the halt is the only one that halts it, and only with READY = 0
(44_service_and_sleep.md R206). -/
theorem noLostWakeup_performWrite {s : State pw dw iw} (h : s.halted = false) (w : Write pw dw iw) :
    NoLostWakeup (performWrite s w) := by
  cases w with
  | halt => simp [NoLostWakeup]
  | _ => simp [NoLostWakeup, h]

/-- From the invariant the machine's own move completes, keeps the invariant and leaves the supply as it was. -/
theorem ownMove_keeps_inv {c : Config pw dw iw} {s : State pw dw iw} (hc : c.Admissible = true) (h : Inv c s) :
    ∃ t, ownMove c s = .next t ∧ Inv c t ∧ t.schedule = s.schedule := by
  obtain ⟨wake, keeps⟩ := h
  rcases ownMove_cases c s with ⟨-, e⟩ | ⟨-, -, e⟩ | ⟨-, run, w, ws, hw, e⟩ | ⟨-, run, hw, body, hb, e⟩ | ⟨-, -, hw, f, hf, -⟩
  · obtain ⟨n, ht, -⟩ := tick_eq s
    exact ⟨_, e.trans ht, ⟨by simp [NoLostWakeup], contract_settled_congr (s := s) rfl rfl rfl rfl keeps⟩, rfl⟩
  · exact ⟨_, e, ⟨wake, contract_settled_congr (s := s) rfl rfl rfl rfl keeps⟩, rfl⟩
  · refine ⟨_, e, ⟨noLostWakeup_performWrite (by exact run) w, ?_⟩, performWrite_schedule _ w⟩
    rw [performWrite_with_work, settled_performWrite hw]
    exact keeps
  · refine ⟨_, e, ⟨by simp [NoLostWakeup, run], ?_⟩, rfl⟩
    have now : Contract c s := by simpa only [settled, hw, performAll_nil] using keeps
    exact contract_performAll_congr (s := s) rfl rfl rfl (contract_performAll_loopBody hc now hb)
  · have now : Contract c s := by simpa only [settled, hw, performAll_nil] using keeps
    obtain ⟨body, hb⟩ := loopBody_ok (c := c) now.2.1
    rw [hb] at hf
    cases hf

theorem machine_admissible : Config.machine.Admissible = true := by decide

/-- Settles O57: with nothing supplied each step is the machine's own move, which completes and keeps the invariant. -/
theorem machineRunsForEver : Obligations.MachineRunsForEver := by
  intro s n inv free
  refine runFor_of_progress (P := fun s => Inv Config.machine s ∧ s.schedule = []) ?_ n ⟨inv, free⟩
  rintro s ⟨inv, free⟩
  obtain ⟨t, ht, inv', same⟩ := ownMove_keeps_inv machine_admissible inv
  exact ⟨t, (step_of_schedule_nil free).trans ht, inv', same.trans free⟩

end Machine
end Sys2Proof

/-! SUPPORT. A loop body run write by write. -/

namespace Sys2Proof
namespace Machine

variable {pw dw iw : Nat}

/-- Every access of COUNT is to a register of the block. -/
theorem target_ne_none_of_mem_countWrites (c : Config pw dw iw) (s : State pw dw iw) :
    ∀ w ∈ countWrites c s, w.target ≠ none := by
  unfold countWrites incrWrites
  split_ifs <;> simp [Write.target]

/-- Every access of an operation with a phase code is to a register of the block. -/
theorem target_ne_none_of_mem_emitWrites {c : Config pw dw iw} {qw : Nat} {p : BitVec qw} {s : State pw dw iw}
    {ws : List (Write pw dw iw)} (h : emitWrites c p s = .ok ws) : ∀ w ∈ ws, w.target ≠ none := by
  rcases emitWrites_cases c p s with ⟨-, e⟩ | ⟨-, -, e⟩ | ⟨-, -, e⟩
  · cases e.symm.trans h
    simp [offWrites, Write.target]
  · cases e.symm.trans h
    simp [highWrites, Write.target]
  · rcases hb : packDigits c (codeLine p) s.digits with f | b
    · simp [e, lowWrites, hb, bind, Except.bind] at h
    · simp only [e, lowWrites, hb, bind, Except.bind, pure, Except.pure, Except.ok.injEq] at h
      subst h
      simp [Write.target]

/-- Every access of a SERVICE is to a register of the block (44_service_and_sleep.md R200). -/
theorem target_ne_none_of_mem_serviceWrites {c : Config pw dw iw} {s : State pw dw iw} {ws : List (Write pw dw iw)}
    (h : serviceWrites c s = .ok ws) : ∀ w ∈ ws, w.target ≠ none := by
  rw [serviceWrites_eq] at h
  rcases he : emitWrites c (nextPhase s.phase) s with f | e
  · simp [he, bind, Except.bind] at h
  · simp only [he, bind, Except.bind, pure, Except.pure, Except.ok.injEq] at h
    subst h
    intro w hw
    simp only [List.mem_append, List.mem_singleton, advanceWrites] at hw
    rcases hw with ((rfl | hw) | hw) | rfl
    · simp [Write.target]
    · exact target_ne_none_of_mem_emitWrites he w hw
    · exact target_ne_none_of_mem_countWrites c s w hw
    · simp [Write.target]

/-- Where the main loop moves by itself: nothing is supplied, no interrupt is waiting and the processor runs. -/
abbrev MainLoopMoves (s : State) : Prop := s.schedule = [] ∧ s.timerEvent = false ∧ s.halted = false

/-- In the main loop's own time a step makes the next access of the loop body. -/
theorem step_of_work_cons {s : State} (h : MainLoopMoves s) (w : Write) (ws : List Write) :
    step { s with work := w :: ws } = .next { performWrite s w with work := ws } := by
  obtain ⟨free, quiet, run⟩ := h
  rw [step_of_schedule_nil (by exact free), ← performWrite_with_work]
  simp [ownMove, interruptTaken, quiet, run]

/-- In the main loop's own time, with no access left, a step begins the next loop body. -/
theorem step_of_work_nil {s : State} (h : MainLoopMoves s) (hw : s.work = []) {body : List Write}
    (hb : loopBody Config.machine s = .ok body) : step s = .next { s with work := body } := by
  obtain ⟨free, quiet, run⟩ := h
  rw [step_of_schedule_nil free]
  simp [ownMove, interruptTaken, quiet, run, hw, hb]

/-- An access that is not the halt leaves the main loop its own time. -/
theorem mainLoopMoves_performWrite {s : State} (h : MainLoopMoves s) {w : Write} (hh : w ≠ .halt) :
    MainLoopMoves (performWrite s w) := by
  obtain ⟨free, quiet, run⟩ := h
  refine ⟨(performWrite_schedule s w).trans free, (performWrite_timerEvent s w).trans quiet, ?_⟩
  cases w with
  | halt => exact absurd rfl hh
  | _ => exact run

/-- So do accesses with no halt among them. -/
theorem mainLoopMoves_performAll {ws : List Write} (hh : .halt ∉ ws) {s : State} (h : MainLoopMoves s) :
    MainLoopMoves (performAll s ws) := by
  induction ws generalizing s with
  | nil => exact h
  | cons w ws ih =>
    obtain ⟨hw, hws⟩ := List.ne_and_not_mem_of_not_mem_cons hh
    exact ih hws (mainLoopMoves_performWrite h hw.symm)

/-- In the main loop's own time, the accesses before the halt are made one a step, and nothing else happens. -/
theorem runFor_writes {ws : List Write} (hh : .halt ∉ ws) (rest : List Write) {s : State} (h : MainLoopMoves s) :
    runFor ws.length { s with work := ws ++ rest } = .next { performAll s ws with work := rest } := by
  induction ws generalizing s with
  | nil => rfl
  | cons w ws ih =>
    obtain ⟨hw, hws⟩ := List.ne_and_not_mem_of_not_mem_cons hh
    exact (runFor_succ_of_step (step_of_work_cons h w (ws ++ rest)) ws.length).trans
      (ih hws (mainLoopMoves_performWrite h hw.symm))

/-- In the main loop's own time, a list of accesses is made up to its halt, the halt included. -/
theorem runFor_halt {ws : List Write} (hh : .halt ∉ ws) (rest : List Write) {s : State} (h : MainLoopMoves s) :
    runFor (ws.length + 1) { s with work := ws ++ .halt :: rest } =
      .next { performWrite (performAll s ws) .halt with work := rest } := by
  rw [runFor_add, runFor_writes hh _ h, andThen_next,
    runFor_succ_of_step (step_of_work_cons (mainLoopMoves_performAll hh h) .halt rest), runFor_zero]

/-- A loop body whose accesses before the sleep sequence are `ws`, with READY = 0 after them, comes, run write by write, to where the
event SLEEP comes from there. -/
theorem runFor_loopBody_eq_sleep {s : State} (h : MainLoopMoves s) (hw : s.work = []) {ws : List Write}
    (hb : loopBody Config.machine s = .ok (ws ++ sleepEntry ++ sleepExit)) (hh : .halt ∉ ws)
    (hr : (performAll s ws).ready = false) : ∃ n, runFor n s = sleep (performAll s ws) := by
  have toHalt := runFor_halt (ws := ws ++ [.sleepEn true, .enableInterrupts]) (by simp [hh]) sleepExit h
  have body : ws ++ sleepEntry ++ sleepExit = (ws ++ [.sleepEn true, .enableInterrupts]) ++ .halt :: sleepExit := by
    simp [sleepEntry]
  rw [body] at hb
  refine ⟨_, (runFor_succ_of_step (step_of_work_nil h hw hb) _).trans (toHalt.trans ?_)⟩
  rw [sleep_of_not_ready hr]
  simp [sleepExit, hr, hw]

/-- Settles O58: the body of a READY machine is the SERVICE's accesses and the sleep sequence, that of an unready one the sleep sequence
alone; either comes to where the event SLEEP comes (`runFor_loopBody_eq_sleep`). -/
theorem writeByWriteReachesTheEvents : Obligations.WriteByWriteReachesTheEvents := by
  intro s v free idle run quiet
  have moves : MainLoopMoves s := ⟨free, quiet, run⟩
  refine ⟨fun hr hv => ?_, fun hr hv => ?_⟩
  · obtain ⟨t, ht, hv⟩ := andThen_eq_next.1 hv
    obtain ⟨-, ws, hws, rfl⟩ := service_eq_next.1 ht
    have halt : .halt ∉ ws := fun m => target_ne_none_of_mem_serviceWrites hws _ m rfl
    obtain ⟨n, hn⟩ := runFor_loopBody_eq_sleep moves idle (loopBody_eq_ok.2 ⟨ws, rfl, .inl ⟨hr, hws⟩⟩) halt
      (performAll_serviceWrites_registers hws).2.1
    exact ⟨n, hn.trans hv⟩
  · obtain ⟨n, hn⟩ := runFor_loopBody_eq_sleep moves idle (loopBody_eq_ok.2 ⟨[], rfl, .inr ⟨hr, rfl⟩⟩) List.not_mem_nil hr
    exact ⟨n, hn.trans hv⟩

end Machine
end Sys2Proof

/-! SUPPORT. What a step does to the registers as they will be at the end of the loop body, READY left out: one inversion lemma for the step,
from which the contract and the driven ports follow. -/

namespace Sys2Proof
namespace Machine

variable {pw dw iw : Nat}

/-- The registers of the block without READY, which is the tick's (10_state.md R20, R39): every other field as cold start has it. -/
def blockOf (s : State pw dw iw) : State pw dw iw :=
  { State.coldStart with
    digits := s.digits, phase := s.phase, interval := s.interval, segByte := s.segByte
    segDir := s.segDir, segOut := s.segOut, comDir := s.comDir, comOut := s.comOut }

/-- The contract speaks of the block only. -/
theorem contract_blockOf (c : Config pw dw iw) (s : State pw dw iw) : Contract c (blockOf s) ↔ Contract c s := Iff.rfl

/-- What the ports show speaks of the block only. -/
theorem driven_blockOf (c : Config pw dw iw) (s : State pw dw iw) : Driven c (blockOf s) ↔ Driven c s := Iff.rfl

/-- Accesses take the block from what it is, whatever the rest of the state. -/
theorem blockOf_performAll_congr {s t : State pw dw iw} (h : blockOf s = blockOf t) (ws : List (Write pw dw iw)) :
    blockOf (performAll s ws) = blockOf (performAll t ws) := by
  refine performAll_congr blockOf (fun w s t e => ?_) h ws
  cases w <;> simp_all [blockOf]

/-- The block at the end of the loop body depends on the block and the accesses still to be made only. -/
theorem blockOf_settled_congr {s t : State pw dw iw} (h : blockOf s = blockOf t) (hw : s.work = t.work) :
    blockOf (settled s) = blockOf (settled t) := by
  rw [settled, settled, hw]
  exact blockOf_performAll_congr h t.work

/-- The sleep sequence leaves the block as it is (44_service_and_sleep.md R205). -/
theorem blockOf_performAll_sleep (s : State pw dw iw) : blockOf (performAll s (sleepEntry ++ sleepExit)) = blockOf s := rfl

/-- With no loop body in progress the registers are already what they will be. -/
theorem settled_of_work_nil {s : State pw dw iw} (h : s.work = []) : settled s = s := by
  rw [settled, h, performAll_nil]

/-- How a move from `s` to `t` may change the block as it will be at the end of the loop body: not at all, or by one SERVICE that is made
or begun where no loop body is in progress. -/
def SettlesAlike (c : Config pw dw iw) (s t : State pw dw iw) : Prop :=
  blockOf (settled t) = blockOf (settled s) ∨
  (s.work = [] ∧ ∃ ws, serviceWrites c s = .ok ws ∧ blockOf (settled t) = blockOf (performAll s ws))

/-- What speaks of the block only and is kept by every SERVICE is kept by such a move. -/
theorem SettlesAlike.keeps {c : Config pw dw iw} {P : State pw dw iw → Prop} (block : ∀ s, P (blockOf s) ↔ P s) {s t : State pw dw iw}
    (serviced : ∀ ws, P s → serviceWrites c s = .ok ws → P (performAll s ws)) (h : SettlesAlike c s t) (hs : P (settled s)) :
    P (settled t) := by
  rw [← block]
  rcases h with e | ⟨hw, ws, hws, e⟩
  · rw [e, block]
    exact hs
  · rw [e, block]
    rw [settled_of_work_nil hw] at hs
    exact serviced ws hs hws

/-- A move from `s` to `t` that settles alike, loses no wake-up, and only takes from what is supplied. -/
abbrev KeepsCourse (c : Config pw dw iw) (s t : State pw dw iw) : Prop :=
  NoLostWakeup t ∧ SettlesAlike c s t ∧ t.schedule <:+ s.schedule

/-- Taking the event that asks for the move from what is supplied changes nothing of this. -/
theorem keepsCourse_of_schedule_cons {c : Config pw dw iw} {s t : State pw dw iw} {e : Event} {rest : List Event}
    (hs : s.schedule = e :: rest) (h : KeepsCourse c { s with schedule := rest } t) : KeepsCourse c s t := by
  obtain ⟨wake, settles, fewer⟩ := h
  refine ⟨wake, ?_, hs ▸ fewer.trans (List.suffix_cons e rest)⟩
  rcases settles with same | ⟨hw, ws, hws, same⟩
  · exact .inl (same.trans (blockOf_settled_congr rfl rfl))
  · have writes : serviceWrites c { s with schedule := rest } = serviceWrites c s := serviceWrites_congr c rfl rfl rfl rfl
    exact .inr ⟨hw, ws, writes.symm.trans hws, same.trans (blockOf_performAll_congr (by rfl) ws)⟩

/-- TICK leaves the block as it is and wakes the processor (40_tick_source.md R120). -/
theorem keepsCourse_tick {c : Config pw dw iw} {s t : State pw dw iw} (h : tick s = .next t) : KeepsCourse c s t := by
  obtain ⟨n, e, -⟩ := tick_eq s
  cases e.symm.trans h
  exact ⟨by simp [NoLostWakeup], .inl (blockOf_settled_congr rfl rfl), List.suffix_rfl⟩

/-- SLEEP leaves the block as it is, and halts only where no tick is waiting (44_service_and_sleep.md R205, R206). -/
theorem keepsCourse_sleep {c : Config pw dw iw} {s t : State pw dw iw} (h : sleep s = .next t) : KeepsCourse c s t := by
  cases hr : s.ready
  · cases (sleep_of_not_ready hr).symm.trans h
    exact ⟨fun _ => hr, .inl (blockOf_performAll_congr (by rfl) s.work), List.suffix_rfl⟩
  · cases (sleep_of_ready hr).symm.trans h
    exact ⟨by simp [NoLostWakeup], .inl (blockOf_settled_congr rfl rfl), List.suffix_rfl⟩

/-- An event of the main loop comes to a running processor only between two loop bodies. -/
theorem work_nil_of_mainLoopWaits {s : State} (h : mainLoopWaits s = false) (run : s.halted = false) : s.work = [] := by
  rcases hw : s.work with _ | ⟨w, ws⟩
  · rfl
  · simp [mainLoopWaits, midBody, run, hw] at h

/-- Where no wake-up is lost, a waiting tick means that the processor runs (44_service_and_sleep.md R206). -/
theorem running_of_ready {s : State pw dw iw} (wake : NoLostWakeup s) (hr : s.ready = true) : s.halted = false := by
  simpa [hr] using mt wake

/-- A SERVICE supplied where the main loop is free is made there, with no loop body in progress: a tick waits, so the processor runs. -/
theorem keepsCourse_service {s t : State} (wake : NoLostWakeup s) (free : mainLoopWaits s = false)
    (h : service Config.machine s = .next t) : KeepsCourse Config.machine s t := by
  obtain ⟨hr, ws, hws, rfl⟩ := service_eq_next.1 h
  have idle := work_nil_of_mainLoopWaits free (running_of_ready wake hr)
  have after : (performAll s ws).work = [] := (performAll_work s ws).trans idle
  exact ⟨fun _ => (performAll_serviceWrites_registers hws).2.1, .inr ⟨idle, ws, hws, by rw [settled_of_work_nil after]⟩,
    performAll_schedule s ws ▸ List.suffix_rfl⟩

/-- The machine's own move begins a SERVICE or leaves the block where the loop body takes it, and loses no wake-up. -/
theorem keepsCourse_ownMove {c : Config pw dw iw} {s t : State pw dw iw} (wake : NoLostWakeup s) (h : ownMove c s = .next t) :
    KeepsCourse c s t := by
  rcases ownMove_cases c s with ⟨-, e⟩ | ⟨-, -, e⟩ | ⟨-, run, w, ws, hw, e⟩ | ⟨-, run, hw, body, hb, e⟩ | ⟨-, -, -, f, -, e⟩
  · exact keepsCourse_tick (e.symm.trans h)
  · cases e.symm.trans h
    exact ⟨wake, .inl (blockOf_settled_congr rfl rfl), List.suffix_rfl⟩
  · cases e.symm.trans h
    refine ⟨noLostWakeup_performWrite (by exact run) w, .inl ?_, by simp⟩
    rw [performWrite_with_work, settled_performWrite hw]
    rfl
  · cases e.symm.trans h
    refine ⟨by simp [NoLostWakeup, run], ?_, List.suffix_rfl⟩
    obtain ⟨ws, rfl, ⟨-, hws⟩ | ⟨-, rfl⟩⟩ := loopBody_eq_ok.1 hb
    · refine .inr ⟨hw, ws, hws, ?_⟩
      rw [settled, List.append_assoc, performAll_append, blockOf_performAll_sleep]
      exact blockOf_performAll_congr (by rfl) ws
    · refine .inl ?_
      rw [settled_of_work_nil hw]
      rfl
  · cases e.symm.trans h

/-- The low-assert operation of a line is LOW of the line (41_refresh_state_machine.md R142, R144, R146, R148). -/
theorem execWith_lowInstr (c : Config pw dw iw) (k : Fin 4) (s : State pw dw iw) : execWith c (lowInstr k) s = low c k s := by
  fin_cases k <;> rfl

/-- The high-assert operation of a line is HIGH of the line (41_refresh_state_machine.md R143, R145, R147, R149). -/
theorem execWith_highInstr (c : Config pw dw iw) (k : Fin 4) (s : State pw dw iw) : execWith c (highInstr k) s = high c k s := by
  fin_cases k <;> rfl

/-- The operation of a phase code changes the latch and the four port registers only. -/
theorem execWith_decodePhase_eq_next {c : Config pw dw iw} {p : Byte} {s t : State pw dw iw}
    (h : execWith c (decodePhase p) s = .next t) : ∃ b sd so cd co,
      t = { s with segByte := b, segDir := sd, segOut := so, comDir := cd, comOut := co } := by
  rcases decodePhase_cases p with ⟨-, e⟩ | ⟨-, -, e⟩ | ⟨-, -, e⟩
  · rw [e] at h
    cases (off_eq s).symm.trans h
    exact ⟨_, _, _, _, _, rfl⟩
  · rw [e, execWith_highInstr] at h
    cases (high_eq c _ s).symm.trans h
    exact ⟨_, _, _, _, _, rfl⟩
  · rw [e, execWith_lowInstr] at h
    obtain ⟨b, -, rfl⟩ := low_eq_next.1 h
    exact ⟨_, _, _, _, _, rfl⟩

theorem step_of_operation {s t : State} {i : Instr} (h : nextMove s = .operation i t) : step s = exec i t := by
  simp [step, h]

/-- What a step that completes can do: run a supplied RESET, run the operation of a supplied phase code, or move so that the block at the
end of the loop body is as before or one SERVICE further. -/
theorem step_cases {s t : State} (wake : NoLostWakeup s) (h : step s = .next t) :
    (∃ rest, s.schedule = .reset :: rest ∧ t = { State.reset with schedule := rest }) ∨
    (∃ p rest b sd so cd co, s.schedule = .emit p :: rest ∧
      t = { s with schedule := rest, segByte := b, segDir := sd, segOut := so, comDir := cd, comOut := co }) ∨
    KeepsCourse Config.machine s t := by
  rcases nextMove_cases s with ⟨-, e⟩ |
    ⟨ev, rest, hs, ⟨-, e⟩ | ⟨-, e⟩ | ⟨-, e⟩ | ⟨rfl, e⟩ | ⟨p, rfl, e⟩ | ⟨-, hw, e⟩ | ⟨-, -, e⟩ | ⟨-, -, e⟩⟩
  · exact .inr (.inr (keepsCourse_ownMove wake ((step_of_own e).symm.trans h)))
  · exact .inr (.inr (keepsCourse_of_schedule_cons hs (keepsCourse_ownMove (by exact wake) ((step_of_own e).symm.trans h))))
  · cases (step_of_firing e).symm.trans h
    exact .inr (.inr (keepsCourse_of_schedule_cons hs ⟨wake, .inl (blockOf_settled_congr rfl rfl), List.suffix_rfl⟩))
  · exact .inr (.inr (keepsCourse_of_schedule_cons hs (keepsCourse_tick ((step_of_operation e).symm.trans h))))
  · cases (step_of_operation e).symm.trans h
    exact .inl ⟨rest, hs, rfl⟩
  · have run : execWith Config.machine (decodePhase p) { s with schedule := rest } = .next t := by
      rw [← exec_eq_execWith]
      exact (step_of_operation e).symm.trans h
    obtain ⟨b, sd, so, cd, co, rfl⟩ := execWith_decodePhase_eq_next run
    exact .inr (.inl ⟨p, rest, b, sd, so, cd, co, hs, rfl⟩)
  · have served := keepsCourse_service (by exact wake) (by exact hw) ((step_of_operation e).symm.trans h)
    exact .inr (.inr (keepsCourse_of_schedule_cons hs served))
  · exact .inr (.inr (keepsCourse_of_schedule_cons hs (keepsCourse_sleep ((step_of_operation e).symm.trans h))))
  · exact .inr (.inr (keepsCourse_ownMove wake ((step_of_own e).symm.trans h)))

/-- Settles O53, by evaluation at cold start. -/
theorem invariantAtReset : Obligations.InvariantAtReset := by
  unfold Obligations.InvariantAtReset
  decide

/-- Settles O54: RESET gives cold start, an operation of a phase code touches no register of the contract, and any other step leaves the
block where the loop body takes it or makes one SERVICE, which keeps the contract (`performAll_serviceWrites_counts`). -/
theorem contractIsKeptByEveryStep : Obligations.ContractIsKeptByEveryStep := by
  rintro s t ⟨wake, keeps⟩ h
  rcases step_cases wake h with ⟨rest, -, rfl⟩ | ⟨p, rest, b, sd, so, cd, co, -, rfl⟩ | ⟨wake', settles, -⟩
  · exact invariantAtReset.1
  · exact ⟨wake, contract_settled_congr (s := s) rfl rfl rfl rfl keeps⟩
  · exact ⟨wake', settles.keeps (contract_blockOf _)
      (fun ws hs hws => (performAll_serviceWrites_counts machine_admissible hs hws).1) keeps⟩

/-- Whatever the ports held, a SERVICE's accesses leave them driven as the new phase says (10_state.md R42, 41_refresh_state_machine.md
R152). -/
theorem driven_performAll_serviceWrites {c : Config pw dw iw} {s : State pw dw iw} {ws : List (Write pw dw iw)}
    (h : serviceWrites c s = .ok ws) : Driven c (performAll s ws) := by
  rcases performAll_serviceWrites h with ⟨hh, e⟩ | ⟨hh, b, -, e⟩
  · simp [e, Driven, hh]
  · simp [e, Driven, hh]

/-- Settles O55: with neither RESET nor EMIT supplied, a step leaves the ports where the loop body takes them or makes one SERVICE, which
drives them. -/
theorem portsStayDriven : Obligations.PortsStayDriven := by
  rintro s t ⟨wake, drives, driven⟩ h
  rcases step_cases wake h with ⟨rest, hs, -⟩ | ⟨p, rest, b, sd, so, cd, co, hs, -⟩ | ⟨wake', settles, fewer⟩
  · simp [hs, Event.drives] at drives
  · simp [hs, Event.drives] at drives
  · refine ⟨wake', ?_, settles.keeps (driven_blockOf _) (fun _ _ hws => driven_performAll_serviceWrites hws) driven⟩
    exact List.all_eq_true.2 fun e he => List.all_eq_true.1 drives e (fewer.subset he)

end Machine
end Sys2Proof

/-! SUPPORT. The frame of every operation, PHASE and its path through a frame, and what a SERVICE drives. -/

namespace Sys2Proof
namespace Machine

variable {pw dw iw : Nat}

/-- INCR always completes, and changes the digits only. -/
theorem incr_eq (c : Config pw dw iw) (s : State pw dw iw) :
    incr c s = .next { s with digits := (performAll s (incrWrites c s.digits)).digits } :=
  congrArg _ (performAll_incrWrites c s)

/-- COUNT always completes, and changes INTERVAL and the digits only. -/
theorem count_eq (c : Config pw dw iw) (s : State pw dw iw) :
    count c s = .next { s with
      interval := (performAll s (countWrites c s)).interval, digits := (performAll s (countWrites c s)).digits } :=
  congrArg _ (performAll_countWrites c s)

/-- The frame of every operation, for any parameters: a register outside its column is as it was (10_state.md R39). -/
theorem readReg_execWith {c : Config pw dw iw} {i : Instr} {s t : State pw dw iw} {r : Reg} (h : execWith c i s = .next t)
    (hr : mayWrite i r = false) : readReg t r = readReg s r := by
  cases i with
  | com0L | com1L | com2L | com3L =>
    obtain ⟨b, -, rfl⟩ := low_eq_next.1 h
    cases r <;> simp_all [mayWrite, readReg]
  | com0H | com1H | com2H | com3H =>
    cases (high_eq c _ s).symm.trans h
    cases r <;> simp_all [mayWrite, readReg]
  | off code =>
    cases (off_eq s).symm.trans h
    cases r <;> simp_all [mayWrite, readReg]
  | tick =>
    obtain ⟨n, e, -⟩ := tick_eq s
    cases e.symm.trans h
    cases r <;> simp_all [mayWrite, readReg]
  | service | reset => cases hr
  | sleep =>
    cases ready : s.ready
    · cases (sleep_of_not_ready ready).symm.trans h
      cases r <;> rfl
    · cases (sleep_of_ready ready).symm.trans h
      cases r <;> rfl
  | advance =>
    cases (advance_eq s).symm.trans h
    cases r <;> simp_all [mayWrite, readReg]
  | pack k | lut v =>
    obtain ⟨b, -, rfl⟩ := returnByte_eq_next.1 h
    cases r <;> rfl
  | count =>
    cases (count_eq c s).symm.trans h
    cases r <;> simp_all [mayWrite, readReg]
  | incr =>
    cases (incr_eq c s).symm.trans h
    cases r <;> simp_all [mayWrite, readReg]

/-- Settles O50, by the end state of each operation (`readReg_execWith`). -/
theorem operationsWriteOnlyTheirRegisters : Obligations.OperationsWriteOnlyTheirRegisters := by
  intro i s t r h hr
  rw [exec_eq_execWith] at h
  exact readReg_execWith h hr

/-! PHASE (10_state.md R25, R26). -/

/-- PHASE is in the columns of RESET, ADVANCE and SERVICE only (10_state.md R25). -/
theorem mayWrite_phase (i : Instr) : mayWrite i .phase = true ↔ i = .reset ∨ i = .advance ∨ i = .service := by
  cases i <;> simp [mayWrite]

/-- PHASE after each operation, for any parameters. -/
theorem execWith_phase {c : Config pw dw iw} {i : Instr} {s t : State pw dw iw} (h : execWith c i s = .next t) :
    (i = .reset → t.phase = 7) ∧ (i = .advance ∨ i = .service → t.phase = nextPhase s.phase) ∧
    (i ≠ .reset → i ≠ .advance → i ≠ .service → t.phase = s.phase) := by
  refine ⟨?_, ?_, fun hr ha hs => ?_⟩
  · rintro rfl
    cases h
    rfl
  · rintro (rfl | rfl)
    · cases h
      rfl
    · obtain ⟨-, ws, hws, rfl⟩ := service_eq_next.1 h
      exact (performAll_serviceWrites_registers hws).1
  · have outside : mayWrite i .phase = false := by
      rw [← Bool.not_eq_true, mayWrite_phase]
      simp [hr, ha, hs]
    exact BitVec.eq_of_toNat_eq (readReg_execWith h outside)

/-- The operation `f` does the same whatever PHASE holds, and leaves it. -/
def IgnoresPhase (f : State pw dw iw → Result pw dw iw) : Prop :=
  ∀ s q, f { s with phase := q } = andThen (f s) fun t => .next { t with phase := q }

theorem low_ignoresPhase (c : Config pw dw iw) (k : Fin 4) : IgnoresPhase (low c k) := by
  intro s q
  rcases h : packDigits c k s.digits with e | b <;>
    simp [low, lowWrites, commit, h, bind, Except.bind, pure, Except.pure]

theorem returnByte_ignoresPhase (b : Except Fault Byte) : IgnoresPhase (pw := pw) (dw := dw) (iw := iw) (returnByte b) := by
  intro s q
  cases b <;> rfl

theorem tick_ignoresPhase : IgnoresPhase (pw := pw) (dw := dw) (iw := iw) tick := by
  intro s q
  obtain ⟨n, e, hn⟩ := tick_eq s
  obtain ⟨m, e', hm⟩ := tick_eq { s with phase := q }
  obtain rfl : m = n := hm.trans hn.symm
  rw [e, e']
  rfl

theorem sleep_ignoresPhase : IgnoresPhase (pw := pw) (dw := dw) (iw := iw) sleep := by
  intro s q
  cases h : s.ready
  · simp [sleep_of_not_ready, h]
  · simp [sleep_of_ready, h]

theorem incr_ignoresPhase (c : Config pw dw iw) : IgnoresPhase (incr c) := by
  intro s q
  rw [incr_eq, incr_eq, performAll_digits_congr (t := s) _ (by rfl)]
  rfl

theorem count_ignoresPhase (c : Config pw dw iw) : IgnoresPhase (count c) := by
  intro s q
  have same : countWrites c { s with phase := q } = countWrites c s := countWrites_congr c rfl rfl
  rw [count_eq, count_eq, same, performAll_digits_congr (t := s) _ (by rfl), performAll_interval_congr (t := s) _ (by rfl)]
  rfl

/-- No operation but RESET, ADVANCE and SERVICE reads PHASE, for any parameters (10_state.md R25). -/
theorem execWith_ignoresPhase (c : Config pw dw iw) {i : Instr} (hr : i ≠ .reset) (ha : i ≠ .advance) (hs : i ≠ .service) :
    IgnoresPhase (execWith c i) := by
  cases i with
  | com0L | com1L | com2L | com3L => exact low_ignoresPhase c _
  | com0H | com1H | com2H | com3H => exact fun _ _ => rfl
  | off code => exact fun _ _ => rfl
  | tick => exact tick_ignoresPhase
  | sleep => exact sleep_ignoresPhase
  | pack k => exact fun s q => returnByte_ignoresPhase (packDigits c k s.digits) s q
  | lut v => exact returnByte_ignoresPhase _
  | count => exact count_ignoresPhase c
  | incr => exact incr_ignoresPhase c
  | reset => exact absurd rfl hr
  | advance => exact absurd rfl ha
  | service => exact absurd rfl hs

/-- Settles O24: the writers by the frame of every operation, the readers one by one (`execWith_ignoresPhase`). -/
theorem phaseIsWrittenByAdvanceAndReset : Obligations.PhaseIsWrittenByAdvanceAndReset := by
  refine ⟨fun i s t h => ?_, fun i s q hr ha hs => ?_, fun p hp => ?_, by decide⟩
  · rw [exec_eq_execWith] at h
    exact execWith_phase h
  · rw [exec_eq_execWith, exec_eq_execWith]
    exact execWith_ignoresPhase _ hr ha hs s q
  · rw [toNat_nextPhase (by decide) (by omega)]
    omega

/-- The line of a phase is its quotient by 2 (30_encoding.md R90). -/
theorem codeLine_val (p : BitVec pw) : (codeLine p).val = p.toNat / 2 % 4 := by
  simp [codeLine, Nat.shiftRight_eq_div_pow]

/-- The polarity of a phase is its remainder by 2 (30_encoding.md R90). -/
theorem codeHigh_iff (p : BitVec pw) : codeHigh p = true ↔ p.toNat % 2 = 1 := by
  simp [codeHigh, BitVec.getLsbD, Nat.testBit_zero]

/-- A consumed tick takes PHASE to its successor. -/
theorem consumedTick_phase {c : Config pw dw iw} {s t : State pw dw iw} (h : consumedTick c s = .next t) :
    t.phase = nextPhase s.phase := by
  obtain ⟨u, hu, ht⟩ := andThen_eq_next.1 h
  have ticked : u.phase = s.phase := (execWith_phase (c := c) (i := .tick) hu).2.2 nofun nofun nofun
  rw [← ticked]
  exact (execWith_phase (i := .service) ht).2.1 (.inr rfl)

/-- The services of a frame that begins at phase 7 have the phases 0 to 7 in order. -/
theorem frame_phase (hw : 3 ≤ pw) {t : Nat → State pw dw iw} (start : (t 0).phase = 7)
    (next : ∀ n < 8, (t (n + 1)).phase = nextPhase (t n).phase) : ∀ n < 8, (t (n + 1)).phase.toNat = n := by
  have wide : 2 ^ 3 ≤ 2 ^ pw := Nat.pow_le_pow_right (by omega) hw
  have seven : (7 : BitVec pw).toNat = 7 := toNat_literal (n := 7) (by omega)
  intro n hn
  induction n with
  | zero => rw [next 0 hn, start, toNat_nextPhase hw (by omega), seven]
  | succ n ih =>
    have before := ih (by omega)
    rw [next (n + 1) hn, toNat_nextPhase hw (by omega), before]
    omega

/-- Settles O25: 7, a successor or the phase before is all an operation leaves in PHASE, and along a frame it is the successor. -/
theorem frameVisitsEveryPhaseInOrder : Obligations.FrameVisitsEveryPhaseInOrder := by
  refine ⟨fun c i s t hp h => ?_, fun c t hc start frame n hn => ?_⟩
  · obtain ⟨reset, successor, others⟩ := execWith_phase h
    by_cases hr : i = .reset
    · rw [reset hr]
      exact Nat.mod_le _ _
    by_cases hs : i = .advance ∨ i = .service
    · rw [successor hs]
      exact nextPhase_le _
    · rw [not_or] at hs
      rw [others hr hs.1 hs.2]
      exact hp
  · obtain ⟨⟨hw, -, -⟩, -⟩ := admissible_parts hc
    have phase := frame_phase hw start (fun n hn => consumedTick_phase (frame n hn)) n hn
    rw [codeLine_val, codeHigh_iff, phase]
    omega

/-! What a SERVICE drives. -/

/-- Settles O35, by what a SERVICE's accesses leave (`driven_performAll_serviceWrites`). -/
theorem serviceDrivesThePorts : Obligations.ServiceDrivesThePorts := by
  intro pw dw iw c s t h
  obtain ⟨-, ws, hws, rfl⟩ := service_eq_next.1 h
  refine ⟨driven_performAll_serviceWrites hws, ?_⟩
  rw [(performAll_serviceWrites_registers hws).1]
  exact nextPhase_le _

/-- Settles O36, by the two cases of a SERVICE (`performAll_serviceWrites`): the new phase is odd, or even. -/
theorem oneComputationPerPair : Obligations.OneComputationPerPair := by
  intro pw dw iw c s t h
  obtain ⟨-, ws, hws, rfl⟩ := service_eq_next.1 h
  rcases performAll_serviceWrites hws with ⟨odd, e⟩ | ⟨even, b, hb, e⟩
  · rw [e]
    exact ⟨fun even => absurd (odd.symm.trans even) nofun, fun _ => ⟨rfl, rfl⟩⟩
  · rw [e]
    exact ⟨fun _ => ⟨hb, rfl⟩, fun odd => absurd (odd.symm.trans even) nofun⟩

/-! What can stop a step. -/

/-- A SERVICE with READY = 0 is refused by its name (44_service_and_sleep.md R201). -/
theorem service_of_not_ready (c : Config pw dw iw) {s : State pw dw iw} (h : s.ready = false) :
    service c s = .refused .serviceNotReady := by
  simp [service, serviceEnabled, h]

/-- A SERVICE supplied under the invariant where the main loop is free completes, or is refused with READY = 0. -/
theorem service_completes_or_refused {s : State} (inv : Inv Config.machine s) (free : mainLoopWaits s = false) :
    (∃ t, service Config.machine s = .next t) ∨ (service Config.machine s = .refused .serviceNotReady ∧ s.ready = false) := by
  obtain ⟨wake, keeps⟩ := inv
  cases hr : s.ready
  · exact .inr ⟨service_of_not_ready _ hr, rfl⟩
  · rw [settled_of_work_nil (work_nil_of_mainLoopWaits free (running_of_ready wake hr))] at keeps
    obtain ⟨-, digits, -⟩ := keeps
    obtain ⟨ws, hws⟩ := serviceWrites_ok (c := Config.machine) (.inr digits)
    exact .inl ⟨_, service_eq_next.2 ⟨hr, ws, hws, rfl⟩⟩

/-- Under the invariant a step with no EMIT supplied completes, or is a SERVICE refused with READY = 0. -/
theorem step_completes_or_refused {s : State} (inv : Inv Config.machine s) (noEmit : ∀ p, s.schedule.head? ≠ some (.emit p)) :
    (∃ t, step s = .next t) ∨
      (step s = .refused .serviceNotReady ∧ s.ready = false ∧ s.schedule.head? = some .service) := by
  have own {u : State} (hu : Inv Config.machine u) (e : nextMove s = .own u) : ∃ t, step s = .next t := by
    obtain ⟨t, ht, -⟩ := ownMove_keeps_inv machine_admissible hu
    exact ⟨t, (step_of_own e).trans ht⟩
  have inv' (rest : List Event) : Inv Config.machine { s with schedule := rest } :=
    ⟨inv.1, contract_settled_congr (s := s) rfl rfl rfl rfl inv.2⟩
  rcases nextMove_cases s with ⟨-, e⟩ |
    ⟨ev, rest, hs, ⟨-, e⟩ | ⟨-, e⟩ | ⟨-, e⟩ | ⟨-, e⟩ | ⟨p, rfl, -⟩ | ⟨rfl, hw, e⟩ | ⟨-, -, e⟩ | ⟨-, -, e⟩⟩
  · exact .inl (own inv e)
  · exact .inl (own (inv' rest) e)
  · exact .inl ⟨_, step_of_firing e⟩
  · exact .inl ⟨_, step_of_operation e⟩
  · exact .inl ⟨_, step_of_operation e⟩
  · exact absurd (congrArg List.head? hs) (noEmit p)
  · rcases service_completes_or_refused (inv' rest) (by exact hw) with ⟨t, ht⟩ | ⟨refused, hr⟩
    · exact .inl ⟨t, (step_of_operation e).trans ht⟩
    · exact .inr ⟨(step_of_operation e).trans refused, hr, congrArg List.head? hs⟩
  · cases hr : s.ready
    · exact .inl ⟨_, (step_of_operation e).trans (sleep_of_not_ready hr)⟩
    · exact .inl ⟨_, (step_of_operation e).trans (sleep_of_ready hr)⟩
  · exact .inl (own inv e)

/-- Settles O56, by `step_completes_or_refused`. -/
theorem onlyAnUnreadyServiceIsRefused : Obligations.OnlyAnUnreadyServiceIsRefused := by
  intro s inv noEmit
  rcases step_completes_or_refused inv noEmit with ⟨t, ht⟩ | ⟨refused, hr, head⟩
  · rw [ht]
    exact ⟨nofun, nofun⟩
  · rw [refused]
    refine ⟨nofun, ?_⟩
    rintro e ⟨⟩
    exact ⟨rfl, hr, head⟩

end Machine
end Sys2Proof

/-! SUPPORT. The code and its operation, each the only one of the other (30_encoding.md R90 to R94), and the bits that PACK moves. -/

namespace Sys2Proof
namespace Machine

variable {pw dw iw : Nat}

/-! The fields of a code. -/

/-- A code below 8 is the code of its fields (30_encoding.md R90: `p = 2·k + h`). -/
theorem driveCode_fields {p : Byte} (h : isReservedCode p = false) : driveCode (codeLine p) (codeHigh p) = p := by
  have small : ¬ 8 ≤ p.toNat := by
    rw [← isReservedCode_iff, h]
    exact nofun
  have bit : (codeHigh p).toNat = p.toNat % 2 := by
    have := codeHigh_iff p
    cases hh : codeHigh p <;> simp [hh] at this ⊢ <;> omega
  apply BitVec.eq_of_toNat_eq
  rw [driveCode, BitVec.toNat_ofNat, codeLine_val, bit]
  omega

/-- The operation of a drive code (30_encoding.md R91). -/
theorem decodePhase_driveCode (k : Fin 4) (h : Bool) :
    decodePhase (driveCode k h) = if h then highInstr k else lowInstr k := by
  decide +revert

/-- A reserved code selects OFF (30_encoding.md R93). -/
theorem decodePhase_of_reserved {p : Byte} (h : isReservedCode p = true) : decodePhase p = .off p := by
  simp [decodePhase, h]

/-! The code of an operation, and the operation of a code. -/

@[simp] theorem phaseCode_lowInstr (k : Fin 4) : phaseCode (lowInstr k) = some (driveCode k false) := by
  fin_cases k <;> rfl

@[simp] theorem phaseCode_highInstr (k : Fin 4) : phaseCode (highInstr k) = some (driveCode k true) := by
  fin_cases k <;> rfl

/-- An operation has the code p and no other word exactly when p is its phase code (30_encoding.md R94). -/
theorem encode_eq_singleton {i : Instr} {p : Byte} : encode i = [p] ↔ phaseCode i = some p := by
  cases h : phaseCode i <;> simp [encode, h]

/-- The operations with a phase code are those of the format PHASE8 (30_encoding.md R102). -/
theorem exists_phaseCode {i : Instr} (h : i.format = .phase8) : ∃ p, phaseCode i = some p := by
  cases i with
  | com0L | com0H | com1L | com1H | com2L | com2H | com3L | com3H | off code => exact ⟨_, rfl⟩
  | _ => cases h

/-- A code selects any well-formed operation that has it. -/
theorem decodePhase_of_phaseCode {i : Instr} {p : Byte} (wf : i.wellFormed = true) (h : phaseCode i = some p) :
    decodePhase p = i := by
  cases i with
  | off code =>
    cases h
    exact decodePhase_of_reserved wf
  | com0L | com0H | com1L | com1H | com2L | com2H | com3L | com3H =>
    cases h
    exact decodePhase_driveCode _ _
  | _ => cases h

/-- The operation a code selects has that code. -/
theorem phaseCode_decodePhase (p : Byte) : phaseCode (decodePhase p) = some p := by
  rcases decodePhase_cases p with ⟨-, e⟩ | ⟨hr, hh, e⟩ | ⟨hr, hl, e⟩
  · rw [e]
    rfl
  · rw [e, phaseCode_highInstr, ← hh, driveCode_fields hr]
  · rw [e, phaseCode_lowInstr, ← hl, driveCode_fields hr]

/-- The operation a code selects is one of the block (30_encoding.md R92). -/
theorem wellFormed_decodePhase (p : Byte) : (decodePhase p).wellFormed = true := by
  have drive (k : Fin 4) : (highInstr k).wellFormed = true ∧ (lowInstr k).wellFormed = true := by
    fin_cases k <;> exact ⟨rfl, rfl⟩
  rcases decodePhase_cases p with ⟨hr, e⟩ | ⟨-, -, e⟩ | ⟨-, -, e⟩
  · rw [e]
    exact hr
  · rw [e]
    exact (drive _).1
  · rw [e]
    exact (drive _).2

/-- The dispatch inside a SERVICE performs the operation the code selects (41_refresh_state_machine.md R132). -/
theorem commit_emitWrites (c : Config pw dw iw) (p : Byte) (s : State pw dw iw) :
    commit (emitWrites c p s) s = execWith c (decodePhase p) s := by
  cases hr : isReservedCode p
  · cases hh : codeHigh p
    · simp [emitWrites, decodePhase, hr, hh, execWith_lowInstr, low]
    · simp [emitWrites, decodePhase, hr, hh, execWith_highInstr, high, commit]
  · simp [emitWrites, decodePhase, hr, execWith, off, commit]

/-- Settles O2: the word of an operation is its one code, and the code selects the operation (`decodePhase_of_phaseCode`). -/
theorem decodeInvertsEncode : Obligations.DecodeInvertsEncode := by
  intro i wf format rest
  obtain ⟨p, hp⟩ := exists_phaseCode format
  rw [encode_eq_singleton.2 hp, List.singleton_append, decode_cons, decodePhase_of_phaseCode wf hp]

/-- Settles O3: the operation is `decodePhase p`, which has the code (`phaseCode_decodePhase`) and is the only one to have it
(`decodePhase_of_phaseCode`). -/
theorem everyCodeSelectsOneOperation : Obligations.EveryCodeSelectsOneOperation := by
  intro p
  refine ⟨decodePhase p, wellFormed_decodePhase p, encode_eq_singleton.2 (phaseCode_decodePhase p), fun j wf hj => ?_,
    decode_cons p, fun c s => commit_emitWrites c p s⟩
  exact (decodePhase_of_phaseCode wf (encode_eq_singleton.1 hj)).symm

/-- Settles O1, by decoding each code. -/
theorem writtenCodesDecode : Obligations.WrittenCodesDecode := by
  unfold Obligations.WrittenCodesDecode
  decide

/-- Settles O4, by the fields as numbers (`codeLine_val`, `codeHigh_iff`) and the three cases of decoding. -/
theorem phaseCodeFields : Obligations.PhaseCodeFields := by
  refine fun p => ⟨fun legal => ⟨?_, codeHigh_iff p, ?_⟩, fun reserved => ?_⟩
  · rw [codeLine_val]
    omega
  · rcases decodePhase_cases p with ⟨hr, -⟩ | ⟨-, hh, e⟩ | ⟨-, hl, e⟩
    · have := (isReservedCode_iff p).1 hr
      omega
    · rw [if_pos ((codeHigh_iff p).1 hh), e]
    · rw [if_neg (by simp [← codeHigh_iff, hl]), e]
  · exact decodePhase_of_reserved ((isReservedCode_iff p).2 reserved)

/-! The router (30_encoding.md R96 to R98). -/

/-- The place of digit d in the combined byte is filled by the slot of digit d, and by no other. -/
theorem slot_getLsbD_slotShift {c : Config pw dw iw} (hc : c.Admissible = true) (k d e : Fin 4) (p : Byte) {j : Nat} (hj : j < 2) :
    (slot c k e p).getLsbD (c.slotShift.get d + j) = (decide (e = d) && p.getLsbD (c.groupShift.get k + j)) := by
  obtain ⟨-, -, shifts, -⟩ := admissible_parts hc
  obtain ⟨mem, inj⟩ := shift_mem_and_inj shifts
  have hd := mem d
  rw [slot_getLsbD c k e p (by omega)]
  by_cases same : e = d
  · subst same
    simp [hj]
  · have he := mem e
    have apart : c.slotShift.get e ≠ c.slotShift.get d := fun h => same (inj _ _ h)
    have outside : ¬ (c.slotShift.get e ≤ c.slotShift.get d + j ∧ c.slotShift.get d + j - c.slotShift.get e < 2) := by omega
    rw [← Bool.decide_and, decide_eq_false outside, decide_eq_false same, Bool.false_and, Bool.false_and]

/-- Settles O27: of the four slots only that of digit d holds a bit at its place (`slot_getLsbD_slotShift`). -/
theorem routerMovesEveryBit : Obligations.RouterMovesEveryBit := by
  intro pw dw iw c k d ps j hc hj
  simp only [packByte, BitVec.getLsbD_or, slot_getLsbD_slotShift hc k d _ _ hj]
  fin_cases d <;> simp [Quad.get]

end Machine
end Sys2Proof

/-! SUPPORT. The step of a supplied event, and the run of a program to its last event (30_encoding.md R108). -/

namespace Sys2Proof
namespace Machine

variable {pw dw iw : Nat}

/-! The step of a supplied event. -/

/-- A table word that decodes is a phase code, which is supplied as the event EMIT. -/
theorem nextMove_withFetchWord {s : State} {nbits w : Nat} {i : Instr} (h : decodeTableWord nbits w = some i) :
    nextMove (s.withFetchWord nbits w) = .operation i s := by
  rcases hb : bytesOfWord nbits w with _ | ⟨p, rest⟩
  · simp [decodeTableWord, hb] at h
  · simp only [decodeTableWord, hb, decode_cons, Option.some.injEq] at h
    simp [State.withFetchWord, supplyWord, hb, nextMove, h]

/-- A SERVICE supplied where the main loop is free is made at once (log 29). -/
theorem step_of_service {s : State} {rest : List Event} (hs : s.schedule = .service :: rest) (free : mainLoopWaits s = false) :
    step s = exec .service { s with schedule := rest } :=
  step_of_operation (by simp [nextMove, hs, free])

/-- Settles O5, by the head of the schedule. -/
theorem stepRunsTheSuppliedOperation : Obligations.StepRunsTheSuppliedOperation := by
  refine ⟨fun s nbits w i h => step_of_operation (nextMove_withFetchWord h), fun s e rest hs => ⟨?_, ?_, ?_, ?_, ?_⟩⟩
  · rintro p rfl
    exact ⟨decode_cons p [], step_of_operation (by simp [nextMove, hs])⟩
  · rintro rfl
    exact step_of_operation (by simp [nextMove, hs])
  · rintro rfl
    exact step_of_operation (by simp [nextMove, hs])
  · rintro rfl free
    exact step_of_service hs free
  · rintro rfl free
    exact step_of_operation (by simp [nextMove, hs, free])

/-! The only refusal. -/

/-- An operation is refused only for its name: a SERVICE with READY = 0 (60_exceptions.md R222). -/
theorem execWith_eq_refused {c : Config pw dw iw} {i : Instr} {s : State pw dw iw} {e : Refusal}
    (h : execWith c i s = .refused e) : e = .serviceNotReady := by
  have commits {ws : Except Fault (List (Write pw dw iw))} : commit ws s ≠ .refused e := by
    cases ws <;> exact nofun
  have returns {b : Except Fault Byte} : returnByte b s ≠ .refused e := by
    cases b <;> exact nofun
  cases i with
  | com0L | com1L | com2L | com3L => exact absurd h commits
  | pack k | lut v => exact absurd h returns
  | service =>
    cases hr : s.ready
    · cases (service_of_not_ready c hr).symm.trans h
      rfl
    · simp only [execWith, service, serviceEnabled, hr, if_true] at h
      exact absurd h commits
  | sleep =>
    cases hr : s.ready
    · cases (sleep_of_not_ready hr).symm.trans h
    · cases (sleep_of_ready hr).symm.trans h
  | com0H | com1H | com2H | com3H | off code | tick | reset | advance | count | incr => cases h

/-- The machine's own move is never refused. -/
theorem ownMove_ne_refused (c : Config pw dw iw) (s : State pw dw iw) (e : Refusal) : ownMove c s ≠ .refused e := by
  rcases ownMove_cases c s with ⟨-, h⟩ | ⟨-, -, h⟩ | ⟨-, -, w, ws, -, h⟩ | ⟨-, -, -, ws, -, h⟩ | ⟨-, -, -, f, -, h⟩ <;>
    rw [h] <;> exact nofun

/-- A step is refused only for an unready SERVICE, from any state. -/
theorem step_eq_refused {s : State} {e : Refusal} (h : step s = .refused e) : e = .serviceNotReady := by
  rcases hm : nextMove s with ⟨i, u⟩ | u | u
  · rw [step_of_operation hm, exec_eq_execWith] at h
    exact execWith_eq_refused h
  · cases (step_of_firing hm).symm.trans h
  · exact absurd ((step_of_own hm).symm.trans h) (ownMove_ne_refused _ u e)

/-- A step of a program is never refused: the refusal of a SERVICE is skipped. -/
theorem traceStep_ne_refused (s : State) (e : Refusal) : traceStep s ≠ .refused e := by
  rcases h : step s with t | f | r
  · simp [traceStep, h]
  · simp [traceStep, h]
  · obtain rfl := step_eq_refused h
    simp [traceStep, h]

theorem runTrace_ne_refused (n : Nat) (s : State) (e : Refusal) : runTrace n s ≠ .refused e := by
  induction n generalizing s with
  | zero => simp
  | succ n ih =>
    by_cases free : s.schedule = []
    · simp [runTrace_of_schedule_nil free]
    · rw [runTrace_succ free]
      rcases h : traceStep s with t | f | r
      · exact ih t
      · exact nofun
      · exact absurd h (traceStep_ne_refused s r)

/-! The steps a run can still take. -/

/-- What an event of the main loop may have to wait for: the accesses still to be made and the timer's pending event (log 29). -/
def backlog (s : State pw dw iw) : Nat := s.work.length + s.timerEvent.toNat

/-- An operation takes nothing from what is supplied and leaves at most one access more to wait for, that of SLEEP after waking. -/
theorem execWith_backlog {c : Config pw dw iw} {i : Instr} {s t : State pw dw iw} (h : execWith c i s = .next t) :
    t.schedule = s.schedule ∧ backlog t ≤ backlog s + 1 := by
  cases i with
  | com0L | com1L | com2L | com3L =>
    obtain ⟨b, -, rfl⟩ := low_eq_next.1 h
    exact ⟨rfl, Nat.le_succ _⟩
  | com0H | com1H | com2H | com3H | off code | advance =>
    cases h
    exact ⟨rfl, Nat.le_succ _⟩
  | tick =>
    obtain ⟨n, e, -⟩ := tick_eq s
    cases e.symm.trans h
    exact ⟨rfl, by simp only [backlog, Bool.toNat_false]; omega⟩
  | service =>
    obtain ⟨-, ws, -, rfl⟩ := service_eq_next.1 h
    simp [backlog]
  | sleep =>
    cases ready : s.ready
    · cases (sleep_of_not_ready ready).symm.trans h
      exact ⟨rfl, by simp only [backlog, List.length_cons]; omega⟩
    · cases (sleep_of_ready ready).symm.trans h
      exact ⟨rfl, Nat.le_succ _⟩
  | reset =>
    cases h
    exact ⟨rfl, Nat.zero_le _⟩
  | pack k | lut v =>
    obtain ⟨b, -, rfl⟩ := returnByte_eq_next.1 h
    exact ⟨rfl, Nat.le_succ _⟩
  | count =>
    cases (count_eq c s).symm.trans h
    exact ⟨rfl, Nat.le_succ _⟩
  | incr =>
    cases (incr_eq c s).symm.trans h
    exact ⟨rfl, Nat.le_succ _⟩

/-- A move the main loop waits for takes the interrupt or makes the next access: it leaves less to wait for. -/
theorem ownMove_backlog {c : Config pw dw iw} {s t : State pw dw iw} (waits : mainLoopWaits s = true) (h : ownMove c s = .next t) :
    t.schedule = s.schedule ∧ backlog t < backlog s := by
  rcases ownMove_cases c s with ⟨taken, e⟩ | ⟨idle, halted, -⟩ | ⟨-, -, w, ws, hw, e⟩ | ⟨idle, -, hw, -⟩ | ⟨idle, -, hw, -⟩
  · obtain ⟨n, e', -⟩ := tick_eq s
    cases e'.symm.trans (e.symm.trans h)
    have fired : s.timerEvent = true := (Bool.and_eq_true_iff.1 taken).1
    exact ⟨rfl, by simp [backlog, fired]⟩
  · simp [mainLoopWaits, midBody, idle, halted] at waits
  · cases e.symm.trans h
    simp [backlog, hw]
  · simp [mainLoopWaits, midBody, idle, hw] at waits
  · simp [mainLoopWaits, midBody, idle, hw] at waits

/-- A bound on the steps a run can still take: each event is one, and leaves at most one more to wait for. -/
def stepsLeft (s : State) : Nat := 2 * s.schedule.length + backlog s

/-- How a run with events left comes nearer to its end: fewer steps are left, and the supply is only taken from. -/
abbrev NearerToEnd (s t : State) : Prop := stepsLeft t < stepsLeft s ∧ t.schedule <:+ s.schedule

/-- A move that uses up the event at the head and leaves at most one thing more to wait for brings the run nearer to its end. -/
theorem nearerToEnd_of_schedule_cons {s t : State} {e : Event} {rest : List Event} (hs : s.schedule = e :: rest)
    (taken : t.schedule = rest) (h : backlog t ≤ backlog s + 1) : NearerToEnd s t := by
  refine ⟨?_, hs ▸ taken ▸ List.suffix_cons e rest⟩
  simp only [stepsLeft, hs, taken, List.length_cons]
  omega

/-- Every step of the machine with an event of R108 at the head brings the run nearer to its end. -/
theorem nearerToEnd_of_step {s t : State} (hs : s.schedule ≠ []) (noOwn : .own ∉ s.schedule) (h : step s = .next t) :
    NearerToEnd s t := by
  have operation {i : Instr} {e : Event} {rest : List Event} (hs : s.schedule = e :: rest)
      (hm : nextMove s = .operation i { s with schedule := rest }) : NearerToEnd s t := by
    rw [step_of_operation hm, exec_eq_execWith] at h
    obtain ⟨same, le⟩ := execWith_backlog h
    exact nearerToEnd_of_schedule_cons hs same le
  rcases nextMove_cases s with ⟨free, -⟩ |
    ⟨ev, rest, hs, ⟨rfl, -⟩ | ⟨-, e⟩ | ⟨-, e⟩ | ⟨-, e⟩ | ⟨p, -, e⟩ | ⟨-, -, e⟩ | ⟨-, -, e⟩ | ⟨-, waits, e⟩⟩
  · exact absurd free hs
  · simp [hs] at noOwn
  · cases (step_of_firing e).symm.trans h
    exact nearerToEnd_of_schedule_cons hs rfl (by simp only [backlog, fireTimer_work, fireTimer_timerEvent, Bool.toNat_true]; omega)
  · exact operation hs e
  · exact operation hs e
  · exact operation hs e
  · exact operation hs e
  · exact operation hs e
  · obtain ⟨same, lt⟩ := ownMove_backlog waits ((step_of_own e).symm.trans h)
    exact ⟨by simpa only [stepsLeft, same, Nat.add_lt_add_iff_left] using lt, same ▸ List.suffix_rfl⟩

/-- So does every step of a program, the refused SERVICE included. -/
theorem nearerToEnd_of_traceStep {s t : State} (hs : s.schedule ≠ []) (noOwn : .own ∉ s.schedule) (h : traceStep s = .next t) :
    NearerToEnd s t := by
  rcases traceStep_eq_next.1 h with h | ⟨-, rfl⟩
  · exact nearerToEnd_of_step hs noOwn h
  · obtain ⟨e, rest, hs⟩ := List.exists_cons_of_ne_nil hs
    exact nearerToEnd_of_schedule_cons hs (by simp [hs]) (Nat.le_succ _)

/-- A run with steps enough that completes has come to its last event. -/
theorem schedule_nil_of_runTrace {n : Nat} {s t : State} (enough : stepsLeft s ≤ n) (noOwn : .own ∉ s.schedule)
    (h : runTrace n s = .next t) : t.schedule = [] := by
  induction n generalizing s with
  | zero =>
    cases h
    exact List.eq_nil_of_length_eq_zero (by simp only [stepsLeft] at enough; omega)
  | succ n ih =>
    by_cases hs : s.schedule = []
    · rw [runTrace_of_schedule_nil hs] at h
      cases h
      exact hs
    · rw [runTrace_succ hs] at h
      obtain ⟨u, hu, hut⟩ := andThen_eq_next.1 h
      obtain ⟨lt, fewer⟩ := nearerToEnd_of_traceStep hs noOwn hu
      exact ih (by omega) (fun m => noOwn (fewer.subset m)) hut

/-- A program is given steps enough. -/
theorem stepsLeft_le_programSteps (s : State) (events : List Event) :
    stepsLeft { s with schedule := events } ≤ programSteps s events := by
  have := Bool.toNat_le s.timerEvent
  simp only [stepsLeft, backlog, programSteps]
  omega

/-! Progress under the contract. -/

/-- Where every step of a program completes and keeps a property, its run completes and keeps it. -/
theorem runTrace_of_progress {P : State → Prop} (h : ∀ s, P s → s.schedule ≠ [] → ∃ t, traceStep s = .next t ∧ P t) (n : Nat)
    {s : State} (hs : P s) : ∃ t, runTrace n s = .next t ∧ P t := by
  induction n generalizing s with
  | zero => exact ⟨s, rfl, hs⟩
  | succ n ih =>
    by_cases free : s.schedule = []
    · exact ⟨s, runTrace_of_schedule_nil free _, hs⟩
    · obtain ⟨u, hu, hPu⟩ := h s hs free
      obtain ⟨t, ht, hPt⟩ := ih hPu
      exact ⟨t, by rw [runTrace_succ free, hu, andThen_next, ht], hPt⟩

/-- The invariant says nothing of what is supplied. -/
theorem inv_with_schedule {c : Config pw dw iw} {s : State pw dw iw} (h : Inv c s) (events : List Event) :
    Inv c { s with schedule := events } :=
  ⟨h.1, contract_settled_congr (s := s) rfl rfl rfl rfl h.2⟩

/-- Under the invariant a step of a program with no EMIT at the head completes and keeps the invariant. -/
theorem traceStep_keeps_inv {s : State} (inv : Inv Config.machine s) (noEmit : ∀ p, s.schedule.head? ≠ some (.emit p)) :
    ∃ t, traceStep s = .next t ∧ Inv Config.machine t := by
  rcases step_completes_or_refused inv noEmit with ⟨t, ht⟩ | ⟨refused, -, -⟩
  · exact ⟨t, traceStep_eq_next.2 (.inl ht), contractIsKeptByEveryStep s t inv ht⟩
  · exact ⟨_, traceStep_eq_next.2 (.inr ⟨refused, rfl⟩), inv_with_schedule inv _⟩

/-- Under the invariant the run of a program without EMIT completes and keeps the invariant, whatever steps it is given. -/
theorem runTrace_completes (n : Nat) {s : State} (inv : Inv Config.machine s) (noOwn : .own ∉ s.schedule)
    (noEmit : ∀ p, .emit p ∉ s.schedule) : ∃ t, runTrace n s = .next t ∧ Inv Config.machine t := by
  have progress : ∀ s : State, (Inv Config.machine s ∧ .own ∉ s.schedule ∧ ∀ p, .emit p ∉ s.schedule) → s.schedule ≠ [] →
      ∃ t, traceStep s = .next t ∧ Inv Config.machine t ∧ .own ∉ t.schedule ∧ ∀ p, .emit p ∉ t.schedule := by
    rintro s ⟨inv, noOwn, noEmit⟩ hs
    obtain ⟨t, ht, inv'⟩ := traceStep_keeps_inv inv fun p head => noEmit p (List.mem_of_head? head)
    obtain ⟨-, fewer⟩ := nearerToEnd_of_traceStep hs noOwn ht
    exact ⟨t, ht, inv', fun m => noOwn (fewer.subset m), fun p m => noEmit p (fewer.subset m)⟩
  obtain ⟨t, ht, inv', -⟩ := runTrace_of_progress progress n ⟨inv, noOwn, noEmit⟩
  exact ⟨t, ht, inv'⟩

/-! Consumed ticks as a program. -/

/-- What is supplied is no argument of TICK. -/
theorem tick_with_schedule {s t : State pw dw iw} (h : tick s = .next t) (events : List Event) :
    tick { s with schedule := events } = .next { t with schedule := events } := by
  cases h
  simp only [tick]
  split <;> rfl

/-- What is supplied is no argument of an access. -/
theorem performAll_with_schedule (s : State pw dw iw) (events : List Event) (ws : List (Write pw dw iw)) :
    performAll { s with schedule := events } ws = { performAll s ws with schedule := events } := by
  induction ws generalizing s with
  | nil => rfl
  | cons w ws ih =>
    rw [performAll_cons, performAll_cons, ← ih]
    cases w <;> rfl

/-- What is supplied is no argument of SERVICE. -/
theorem service_with_schedule {c : Config pw dw iw} {s t : State pw dw iw} (h : service c s = .next t) (events : List Event) :
    service c { s with schedule := events } = .next { t with schedule := events } := by
  obtain ⟨hr, ws, hws, rfl⟩ := service_eq_next.1 h
  have same : serviceWrites c { s with schedule := events } = serviceWrites c s := serviceWrites_congr c rfl rfl rfl rfl
  exact service_eq_next.2 ⟨hr, ws, same.trans hws, (performAll_with_schedule s events ws).symm⟩

/-- Between two loop bodies a SERVICE supplied after a TICK does not wait: the tick has woken the processor and is acknowledged. -/
theorem mainLoopWaits_of_tick {s t : State} (idle : s.work = []) (h : tick s = .next t) :
    t.work = [] ∧ mainLoopWaits t = false := by
  obtain ⟨n, e, -⟩ := tick_eq s
  cases e.symm.trans h
  simp [mainLoopWaits, interruptTaken, midBody, idle]

/-- Between two loop bodies one consumed tick is two steps of the program, TICK and SERVICE. -/
theorem runTrace_tick_service {s t : State} (idle : s.work = []) (h : consumedTick Config.machine s = .next t) (n : Nat)
    (events : List Event) :
    t.work = [] ∧ runTrace (n + 2) { s with schedule := .tick :: .service :: events } = runTrace n { t with schedule := events } := by
  obtain ⟨u, hu, ht⟩ := andThen_eq_next.1 h
  obtain ⟨idle', free⟩ := mainLoopWaits_of_tick idle hu
  have ticked : traceStep { s with schedule := .tick :: .service :: events } = .next { u with schedule := .service :: events } :=
    traceStep_eq_next.2 (.inl (tick_with_schedule hu _))
  have served : traceStep { u with schedule := .service :: events } = .next { t with schedule := events } :=
    traceStep_eq_next.2 (.inl ((step_of_service rfl (by exact free)).trans (service_with_schedule ht events)))
  constructor
  · obtain ⟨-, ws, -, rfl⟩ := service_eq_next.1 ht
    exact (performAll_work u ws).trans idle'
  · rw [runTrace_succ (by simp), ticked, andThen_next, runTrace_succ (by simp), served, andThen_next]

/-- Between two loop bodies the events of `n*T` end where n consumed ticks do. -/
theorem runTrace_consumedEvents {n : Nat} {s t : State} (idle : s.work = []) (h : consumedTicks Config.machine n s = .next t)
    (spare : Nat) : runTrace (spare + 2 * n) { s with schedule := consumedEvents n } = .next { t with schedule := [] } := by
  induction n generalizing s with
  | zero =>
    cases h
    exact runTrace_of_schedule_nil rfl _
  | succ n ih =>
    obtain ⟨u, hu, hut⟩ := andThen_eq_next.1 h
    obtain ⟨idle', run⟩ := runTrace_tick_service idle hu (spare + 2 * n) (consumedEvents n)
    exact run.trans (ih idle' hut)

theorem length_consumedEvents (n : Nat) : (consumedEvents n).length = 2 * n := by
  induction n with
  | zero => rfl
  | succ n ih =>
    simp only [consumedEvents, List.length_cons, ih]
    omega

/-- A SERVICE supplied with READY = 0 where the main loop is free is dropped: the state is as it was. -/
theorem traceStep_of_unready_service {s : State} {rest : List Event} (hs : s.schedule = .service :: rest)
    (free : mainLoopWaits s = false) (hr : s.ready = false) : traceStep s = .next { s with schedule := rest } := by
  have refused : step s = .refused .serviceNotReady := (step_of_service hs free).trans (service_of_not_ready _ (by exact hr))
  exact traceStep_eq_next.2 (.inr ⟨refused, by simp [hs]⟩)

/-- Settles O60: each step takes an event or makes what the event waits for (`nearerToEnd_of_traceStep`), the only refusal is skipped
(`traceStep_ne_refused`), under the invariant every step completes (`traceStep_keeps_inv`), and a consumed tick is two steps
(`runTrace_tick_service`). -/
theorem programRunsToItsEnd : Obligations.ProgramRunsToItsEnd := by
  refine ⟨fun s rest => traceStep_of_unready_service, fun s items noOwn => ?_, fun s t n idle h => ?_⟩
  · have ends {t : State} : runProgram s items = .next t → t.schedule = [] :=
      schedule_nil_of_runTrace (stepsLeft_le_programSteps s _) noOwn
    refine ⟨fun t => ends, runTrace_ne_refused _ _, fun inv noEmit => ?_⟩
    obtain ⟨t, ht, inv'⟩ := runTrace_completes (programSteps s (expandTrace items)) (inv_with_schedule inv (expandTrace items)) noOwn noEmit
    exact ⟨t, ht, ends ht, inv'⟩
  · have events : expandTrace [.consumed n] = consumedEvents n := by simp [expandTrace, TraceItem.expand]
    have steps : programSteps s (consumedEvents n) = (2 * n + 1) + 2 * n := by
      rw [programSteps, length_consumedEvents, idle, List.length_nil]
      omega
    rw [runProgram, events, steps]
    exact runTrace_consumedEvents idle h (2 * n + 1)

end Machine
end Sys2Proof

/-! SUPPORT. TICK alone, twice, and before a SERVICE (40_tick_source.md R120, R124). -/

namespace Sys2Proof
namespace Machine

variable {pw dw iw : Nat}

/-- Settles O7, by the whole end state of TICK (`tick_eq`) and the frame of the operations. -/
theorem tickSetsReadyOnly : Obligations.TickSetsReadyOnly := by
  intro s
  obtain ⟨n, e, -⟩ := tick_eq s
  refine ⟨_, e, rfl, rfl, fun r hr => ?frame, fun c => ⟨fun _ => rfl, fun _ => rfl⟩, fun hr => ?unmarked, fun hr => ?marked⟩
  case frame => exact operationsWriteOnlyTheirRegisters .tick s _ r e (beq_false_of_ne hr)
  case unmarked => simp [hr]
  case marked => simp [overrunMark, hr]

/-- A TICK right after a TICK finds READY = 1: it only counts, and marks its own number as lost (R124). -/
theorem tick_of_tick {s a : State pw dw iw} (h : tick s = .next a) :
    tick a = .next { a with ticks := a.ticks + 1, overruns := a.overruns ++ [a.ticks + 1] } := by
  obtain ⟨n, e, -⟩ := tick_eq s
  cases e.symm.trans h
  rfl

/-- The twelve registers are the block and READY. -/
theorem sameRegisters_iff_blockOf {s t : State pw dw iw} :
    sameRegisters s t ↔ blockOf s = blockOf t ∧ s.ready = t.ready := by
  constructor
  · intro h
    have digits : s.digits = t.digits := quad_ext fun d => BitVec.eq_of_toNat_eq (h (.digit d))
    have phase : s.phase = t.phase := BitVec.eq_of_toNat_eq (h .phase)
    have ready : s.ready = t.ready := Function.LeftInverse.injective Bool.ofNat_toNat (h .ready)
    have interval : s.interval = t.interval := BitVec.eq_of_toNat_eq (h .interval)
    have segByte : s.segByte = t.segByte := BitVec.eq_of_toNat_eq (h .segByte)
    have segDir : s.segDir = t.segDir := BitVec.eq_of_toNat_eq (h .segDir)
    have segOut : s.segOut = t.segOut := BitVec.eq_of_toNat_eq (h .segOut)
    have comDir : s.comDir = t.comDir := BitVec.eq_of_toNat_eq (h .comDir)
    have comOut : s.comOut = t.comOut := BitVec.eq_of_toNat_eq (h .comOut)
    exact ⟨by rw [blockOf, blockOf, digits, phase, interval, segByte, segDir, segOut, comDir, comOut], ready⟩
  · rintro ⟨block, ready⟩ r
    simp only [blockOf, State.mk.injEq] at block
    cases r <;> simp_all [readReg]

/-- Accesses take the registers from what they are, whatever the rest of the state. -/
theorem sameRegisters_performAll {s t : State pw dw iw} (h : sameRegisters s t) (ws : List (Write pw dw iw)) :
    sameRegisters (performAll s ws) (performAll t ws) := by
  obtain ⟨block, ready⟩ := sameRegisters_iff_blockOf.1 h
  exact sameRegisters_iff_blockOf.2 ⟨blockOf_performAll_congr block ws, performAll_ready_congr ws ready⟩

/-- A SERVICE reads and leaves registers only: from the same registers it completes alike. -/
theorem service_of_sameRegisters {c : Config pw dw iw} {a b t : State pw dw iw} (same : sameRegisters a b)
    (h : service c a = .next t) : ∃ u, service c b = .next u ∧ sameRegisters t u := by
  obtain ⟨ready, ws, hws, rfl⟩ := service_eq_next.1 h
  obtain ⟨block, sameReady⟩ := sameRegisters_iff_blockOf.1 same
  have writes : serviceWrites c a = serviceWrites c b := by
    simp only [blockOf, State.mk.injEq] at block
    obtain ⟨digits, phase, -, interval, segByte, -⟩ := block
    exact serviceWrites_congr c phase digits segByte interval
  exact ⟨_, service_eq_next.2 ⟨sameReady.symm.trans ready, ws, writes.symm.trans hws, rfl⟩, sameRegisters_performAll same ws⟩

/-- A SERVICE neither counts nor marks a tick. -/
theorem service_keeps_marks {c : Config pw dw iw} {s t : State pw dw iw} (h : service c s = .next t) :
    t.ticks = s.ticks ∧ t.overruns = s.overruns := by
  obtain ⟨-, ws, -, rfl⟩ := service_eq_next.1 h
  exact ⟨performAll_ticks s ws, performAll_overruns s ws⟩

/-- Settles O11: the second TICK only counts and marks (`tick_of_tick`), and the SERVICE depends on the registers alone
(`service_of_sameRegisters`). -/
theorem coalescedTicks : Obligations.CoalescedTicks := by
  intro s t h
  obtain ⟨a, once, served⟩ := andThen_eq_next.1 h
  have twice := tick_of_tick once
  obtain ⟨u, servedLate, same⟩ := service_of_sameRegisters
    (b := { a with ticks := a.ticks + 1, overruns := a.overruns ++ [a.ticks + 1] }) (fun r => by cases r <;> rfl) served
  obtain ⟨ticks, -⟩ := service_keeps_marks served
  obtain ⟨ticksLate, marks⟩ := service_keeps_marks servedLate
  refine ⟨u, ?runs, same, by simp [overrunMark, marks], by rw [ticksLate, ticks]⟩
  exact andThen_eq_next.2 ⟨a, once, andThen_eq_next.2 ⟨_, twice, servedLate⟩⟩

end Machine
end Sys2Proof

/-! SUPPORT. Consumed ticks under the contract: one, and then any number of them (30_encoding.md R108). -/

namespace Sys2Proof
namespace Machine

variable {pw dw iw : Nat}

/-- A consumed tick is a SERVICE with READY = 1 on the block as it was: the TICK before it writes READY only. -/
theorem consumedTick_eq_service (c : Config pw dw iw) (s : State pw dw iw) :
    ∃ u, consumedTick c s = service c u ∧ u.ready = true ∧ blockOf u = blockOf s := by
  obtain ⟨n, e, -⟩ := tick_eq s
  exact ⟨_, congrArg (andThen · (service c)) e, rfl, rfl⟩

/-- Within the contract a consumed tick completes, keeps the contract and counts: the phase modulo 8, INTERVAL modulo the threshold, and
the number when the threshold is reached. -/
theorem consumedTick_counts {c : Config pw dw iw} {s : State pw dw iw} (hc : c.Admissible = true) (hs : Contract c s) :
    ∃ t, consumedTick c s = .next t ∧ Contract c t ∧ t.phase.toNat = (s.phase.toNat + 1) % 8 ∧
      t.interval.toNat = (s.interval.toNat + 1) % c.intervalThreshold ∧
      (s.interval.toNat + 1 < c.intervalThreshold → t.digits = s.digits) ∧
      (s.interval.toNat + 1 = c.intervalThreshold → number t.digits =
        if number s.digits = 9999 then (if c.overflowSkipsZero then 1 else 0) else number s.digits + 1) := by
  obtain ⟨u, e, ready, block⟩ := consumedTick_eq_service c s
  have hu : Contract c u := by rwa [← contract_blockOf, block, contract_blockOf]
  simp only [blockOf, State.mk.injEq] at block
  obtain ⟨digits, phase, -, interval, -⟩ := block
  obtain ⟨t, ht, keeps, -, counts⟩ := serviceCountsAtAnyWidth c u hc hu ready
  rw [digits, phase, interval] at counts
  exact ⟨t, e.trans ht, keeps, counts⟩

/-- The count of consumed ticks held in the number and INTERVAL (43_bcd_counter.md R184). -/
def ticksHeld (s : State) : Nat := 100 * number s.digits + s.interval.toNat

/-- Decimal digits show four places at most. -/
theorem number_le {x : Quad (BitVec dw)} (h : digitsOk x) : number x ≤ 9999 := by
  obtain ⟨h0, h1, h2, h3⟩ := h
  unfold number
  omega

/-- Within the contract the count held is below 1 000 000. -/
theorem ticksHeld_lt {s : State} (hs : Contract Config.machine s) : ticksHeld s < 1000000 := by
  obtain ⟨-, digits, interval⟩ := hs
  have threshold : Config.machine.intervalThreshold = 100 := rfl
  have decimal := number_le digits
  unfold ticksHeld
  omega

/-- Within the contract a consumed tick steps the count held by one, from 999 999 to 0 (D14, log 6). -/
theorem consumedTick_ticksHeld {s : State} (hs : Contract Config.machine s) :
    ∃ t, consumedTick Config.machine s = .next t ∧ Contract Config.machine t ∧ t.phase.toNat = (s.phase.toNat + 1) % 8 ∧
      ticksHeld t = (ticksHeld s + 1) % 1000000 := by
  obtain ⟨t, ht, keeps, phase, interval, below, reached⟩ := consumedTick_counts machine_admissible hs
  refine ⟨t, ht, keeps, phase, ?_⟩
  have threshold : Config.machine.intervalThreshold = 100 := rfl
  have wraps : Config.machine.overflowSkipsZero = false := rfl
  simp only [threshold, wraps, Bool.false_eq_true, if_false] at interval below reached
  obtain ⟨-, digits, hi⟩ := hs
  have decimal := number_le digits
  unfold ticksHeld
  rcases Nat.lt_or_eq_of_le (Nat.succ_le_of_lt hi) with lt | eq
  · rw [below lt]
    omega
  · rw [reached eq]
    split <;> omega

/-- Within the contract consumed ticks step the count held, one each. -/
theorem consumedTicks_ticksHeld (n : Nat) {s : State} (hs : Contract Config.machine s) :
    ∃ t, consumedTicks Config.machine n s = .next t ∧ Contract Config.machine t ∧ t.phase.toNat = (s.phase.toNat + n) % 8 ∧
      ticksHeld t = (ticksHeld s + n) % 1000000 := by
  induction n generalizing s with
  | zero => exact ⟨s, rfl, hs, (Nat.mod_eq_of_lt (Nat.lt_succ_of_le hs.1)).symm, (Nat.mod_eq_of_lt (ticksHeld_lt hs)).symm⟩
  | succ n ih =>
    obtain ⟨u, hu, keeps, phase, held⟩ := consumedTick_ticksHeld hs
    obtain ⟨t, ht, keeps', phase', held'⟩ := ih keeps
    exact ⟨t, andThen_eq_next.2 ⟨u, hu, ht⟩, keeps', by omega, by omega⟩

/-- Settles O48, by the count held after one consumed tick and induction on their number (`consumedTicks_ticksHeld`). -/
theorem numberAfterConsumedTicks : Obligations.NumberAfterConsumedTicks :=
  fun _ n => consumedTicks_ticksHeld n

end Machine
end Sys2Proof

/-! SUPPORT. The refresh operations one by one: ADVANCE, PACK, the eight drive operations and OFF, and the pins they leave
(41_refresh_state_machine.md R130 to R155). -/

namespace Sys2Proof
namespace Machine

variable {pw dw iw : Nat}

/-! ADVANCE. -/

theorem nextPhase_of_lt {p : BitVec pw} (h : p.toNat < 7) : nextPhase p = p + 1 :=
  if_neg (Nat.not_le.2 h)

theorem nextPhase_of_ge {p : BitVec pw} (h : 7 ≤ p.toNat) : nextPhase p = 0 :=
  if_pos h

/-- Settles O23, by the end state of ADVANCE (`advance_eq`) and the two cases of the successor. -/
theorem advanceStepsThePhase : Obligations.AdvanceStepsThePhase := by
  intro s
  have e : exec .advance s = .next { s with phase := nextPhase s.phase } := advance_eq s
  refine ⟨fun below => ?_, fun last => ?_⟩
  · rw [e, nextPhase_of_lt below]
  · rw [e, nextPhase_of_ge last]

/-! PACK. -/

/-- A lookup answers exactly the entry the table has at the index. -/
theorem lookup_eq_ok {c : Config pw dw iw} {d : Option (Fin 4)} {v : Nat} {b : Byte} :
    lookup c d v = .ok b ↔ c.segLut[v]? = some b := by
  rcases Nat.lt_or_ge 9 v with above | decimal
  · have outside : c.segLut[v]? = none := Vector.getElem?_eq_none (by omega)
    simp [lookup_of_gt c d above, outside]
  · have within : v < 10 := by omega
    simp [lookup_of_le c d decimal, within]

/-- PACK(k) of decimal digits routes the table's entries for them. -/
theorem packDigits_eq_packByte (c : Config pw dw iw) (k : Fin 4) {x : Quad (BitVec dw)} (h : digitsOk x) :
    ∃ ps, packDigits c k x = .ok (packByte c k ps) ∧ ∀ d, c.segLut[(x.get d).toNat]? = some (ps.get d) := by
  obtain ⟨ps, hps, entries⟩ := patterns_of_digitsOk c h
  exact ⟨ps, by rw [packDigits, hps]; rfl, fun d => lookup_eq_ok.1 (entries d)⟩

/-- PACK(k) performed alone returns the byte it computes. -/
theorem exec_pack_of_ok {k : Fin 4} {s : State} {b : Byte} (h : packDigits Config.machine k s.digits = .ok b) :
    exec (.pack k) s = .next { s with returned := some b } :=
  returnByte_eq_next.2 ⟨b, h, rfl⟩

/-- The default offsets of the groups and of the slots are the even ones in order (D8, D9). -/
theorem machine_shifts (k : Fin 4) : Config.machine.groupShift.get k = 2 * k.val ∧ Config.machine.slotShift.get k = 2 * k.val := by
  decide +revert

/-- Settles O28: the table's entries for the digits (`packDigits_eq_packByte`), routed bit by bit (`routerMovesEveryBit`). -/
theorem packReturnsTheRoutedByte : Obligations.PackReturnsTheRoutedByte := by
  intro k s digits
  obtain ⟨ps, packed, entries⟩ := packDigits_eq_packByte Config.machine k digits
  refine ⟨_, exec_pack_of_ok packed, fun d j hj => ⟨ps.get d, entries d, ?_⟩⟩
  have moved := routerMovesEveryBit Config.machine k d ps j machine_admissible hj
  rwa [(machine_shifts d).2, (machine_shifts k).1] at moved

/-! The drive operations and OFF. -/

/-- On the machine the bit of line k is bit k (D7). -/
theorem lineBit_machine (k : Fin 4) : lineBit Config.machine k = BitVec.ofNat 8 (2 ^ k.val) := by
  decide +revert

theorem exec_lowInstr (k : Fin 4) (s : State) : exec (lowInstr k) s = low Config.machine k s := by
  rw [exec_eq_execWith, execWith_lowInstr]

theorem exec_highInstr (k : Fin 4) (s : State) : exec (highInstr k) s = high Config.machine k s := by
  rw [exec_eq_execWith, execWith_highInstr]

/-- Settles O29, by the end state of LOW(k) (`low_eq_next`). -/
theorem lowAssertEndState : Obligations.LowAssertEndState := by
  intro k s digits
  obtain ⟨b, packed⟩ := packDigits_of_digitsOk Config.machine k digits
  refine ⟨b, exec_pack_of_ok packed, ?_⟩
  rw [exec_lowInstr, ← lineBit_machine]
  exact low_eq_next.2 ⟨b, packed, rfl⟩

/-- Settles O30, by the end state of HIGH(k) (`high_eq`). -/
theorem highAssertEndState : Obligations.HighAssertEndState := by
  intro k s
  rw [exec_highInstr, ← lineBit_machine]
  exact high_eq Config.machine k s

/-- Settles O33: the end state of HIGH(k) names neither the digits nor the table (`high_eq`), that of LOW(k) holds the byte PACK answers
(`low_eq_next`). -/
theorem oddPhasesReadNoDigit : Obligations.OddPhasesReadNoDigit := by
  refine ⟨fun k s x => ?_, fun c table k s => ?_, fun k s t h => ?_⟩
  · rw [exec_highInstr, exec_highInstr, high_eq, high_eq]
    rfl
  · rw [execWith_highInstr, execWith_highInstr, high_eq, high_eq]
    rfl
  · rw [exec_lowInstr] at h
    obtain ⟨b, packed, rfl⟩ := low_eq_next.1 h
    exact packed

/-! The pins. -/

/-- A line whose direction bit is 0 floats (10_state.md R35). -/
theorem pinLevel_zero (out : Byte) (i : Nat) : pinLevel 0x00 out i = .Z := by
  simp [pinLevel]

/-- With the direction registers 0 every line floats. -/
theorem allFloat_of_dir_zero {s : State pw dw iw} (seg : s.segDir = 0x00) (com : s.comDir = 0x00) (c : Config pw dw iw) :
    allFloat c s := by
  refine ⟨fun n => ?_, fun k => ?_⟩
  · rw [segPin, seg, pinLevel_zero]
  · rw [comPin, com, pinLevel_zero]

/-- Settles O32, by the end state of OFF (`off_eq`), whose direction registers are 0. -/
theorem offFloatsEveryLine : Obligations.OffFloatsEveryLine :=
  fun _ s => ⟨_, off_eq s, rfl, allFloat_of_dir_zero rfl rfl⟩

/-- With every segment line driven, each shows its bit of SEG_OUT. -/
theorem segPin_of_driven {s : State pw dw iw} (h : s.segDir = 0xFF) (n : Fin 8) : segPin s n = driven (s.segOut.getLsbD n) := by
  have all : ∀ n : Fin 8, (0xFF : Byte).getLsbD n = true := by decide
  rw [segPin, pinLevel, h, all n]
  rfl

/-- With the bit of line k alone in COM_DIR, line k is driven, low or high as COM_OUT holds 0 or the bit of the line, and the others
float. -/
theorem comPin_of_lineBit {c : Config pw dw iw} {s : State pw dw iw} {k : Fin 4} {high : Bool} (hc : c.Admissible = true)
    (dir : s.comDir = lineBit c k) (out : s.comOut = if high then lineBit c k else 0x00) (j : Fin 4) :
    comPin c s j = if j = k then driven high else .Z := by
  rw [comPin, pinLevel, dir, out, lineBit_getLsbD hc]
  cases high <;> by_cases e : j = k <;> simp [e, driven, lineBit_getLsbD hc]

/-- The inverse of a byte, bit by bit. -/
theorem inverted_getLsbD (b : Byte) (n : Fin 8) : (inverted b).getLsbD n = !b.getLsbD n := by
  simp [inverted]

/-- Settles O31, by the port registers that LOW(k) and HIGH(k) leave, read at the pins (`segPin_of_driven`, `comPin_of_lineBit`). -/
theorem drivePins : Obligations.DrivePins := by
  intro pw dw iw c k s t hc
  refine ⟨fun h => ?_, fun h => ?_⟩
  · obtain ⟨b, -, rfl⟩ := low_eq_next.1 h
    exact ⟨segPin_of_driven rfl, comPin_of_lineBit (high := false) hc rfl rfl⟩
  · cases (high_eq c k s).symm.trans h
    refine ⟨fun n => ?_, comPin_of_lineBit (high := true) hc rfl rfl⟩
    rw [segPin_of_driven rfl n, inverted_getLsbD]

/-- Two states with every line floating are indistinguishable at the display. -/
theorem samePins_of_allFloat {c : Config pw dw iw} {s t : State pw dw iw} (hs : allFloat c s) (ht : allFloat c t) :
    samePins c s t :=
  ⟨fun n => (hs.1 n).trans (ht.1 n).symm, fun k => (hs.2 k).trans (ht.2 k).symm⟩

/-- Settles O34: OFF, HIGH(k) and LOW(k) write what their end states say (`off_eq`, `high_eq`, `low_eq_next`), and read only what they do
not change: nothing, SEGBYTE, the digits. -/
theorem emitIsIdempotent : Obligations.EmitIsIdempotent := by
  intro p s t h
  rcases decodePhase_cases p with ⟨hr, e⟩ | ⟨hr, hh, e⟩ | ⟨hr, hl, e⟩
  · rw [e] at h ⊢
    cases (off_eq s).symm.trans h
    refine ⟨off_eq _, fun s' t' h' _ => ?_⟩
    cases (off_eq s').symm.trans h'
    exact samePins_of_allFloat (allFloat_of_dir_zero rfl rfl _) (allFloat_of_dir_zero rfl rfl _)
  · rw [e, exec_highInstr] at h ⊢
    cases (high_eq _ _ s).symm.trans h
    refine ⟨high_eq _ _ _, fun s' t' h' depends => ?_⟩
    rw [exec_highInstr] at h'
    cases (high_eq _ _ s').symm.trans h'
    have latch : s'.segByte = s.segByte := by simpa [← isReservedCode_iff, hr, hh] using depends
    exact ⟨fun n => by simp only [segPin, latch], fun k => rfl⟩
  · rw [e, exec_lowInstr] at h ⊢
    obtain ⟨b, packed, rfl⟩ := low_eq_next.1 h
    refine ⟨low_eq_next.2 ⟨b, packed, rfl⟩, fun s' t' h' depends => ?_⟩
    rw [exec_lowInstr] at h'
    obtain ⟨b', packed', rfl⟩ := low_eq_next.1 h'
    have digits : s'.digits = s.digits := by simpa [← isReservedCode_iff, hr, hl] using depends
    rw [digits, packed] at packed'
    cases packed'
    exact ⟨fun n => rfl, fun k => rfl⟩

end Machine
end Sys2Proof

/-! SUPPORT. The waveform: what the pins show after a SERVICE, over a pair of phases and over a frame (41_refresh_state_machine.md R152 to
R161). -/

namespace Sys2Proof
namespace Machine

variable {pw dw iw : Nat}

/-! One SERVICE. -/

theorem driven_ne_Z (b : Bool) : driven b ≠ .Z := by
  cases b <;> nofun

/-- With the ports driven as the phase says, only the line of the phase is driven, low on an even phase and high on an odd one. -/
theorem comPin_of_driven {c : Config pw dw iw} {s : State pw dw iw} (hc : c.Admissible = true) (h : Driven c s) (j : Fin 4) :
    comPin c s j = if j = codeLine s.phase then driven (codeHigh s.phase) else .Z := by
  obtain ⟨-, dir, out, -⟩ := h
  exact comPin_of_lineBit hc dir out j

/-- Settles O38: a SERVICE leaves the ports driven as its phase says (`serviceDrivesThePorts`), read at the common lines
(`comPin_of_driven`). -/
theorem oneLineDrivenAfterEveryService : Obligations.OneLineDrivenAfterEveryService := by
  intro pw dw iw c s t hc h j
  rw [comPin_of_driven hc (serviceDrivesThePorts c s t h).1]
  split
  case isTrue same => exact iff_of_true (driven_ne_Z _) same
  case isFalse other => exact iff_of_false (fun floats => floats rfl) other

/-! A pair of phases. -/

/-- A consumed tick leaves the ports driven as its phase says, and a legal phase. -/
theorem driven_of_consumedTick {c : Config pw dw iw} {s t : State pw dw iw} (h : consumedTick c s = .next t) :
    Driven c t ∧ t.phase.toNat ≤ 7 := by
  obtain ⟨u, -, served⟩ := andThen_eq_next.1 h
  exact serviceDrivesThePorts c u t served

/-- A consumed tick of an odd phase keeps the latched byte. -/
theorem segByte_of_consumedTick {c : Config pw dw iw} {s t : State pw dw iw} (h : consumedTick c s = .next t)
    (odd : codeHigh t.phase = true) : t.segByte = s.segByte := by
  obtain ⟨u, e, -, block⟩ := consumedTick_eq_service c s
  have latch : u.segByte = s.segByte := by simpa only [blockOf] using congrArg State.segByte block
  rw [← latch]
  exact ((oneComputationPerPair c u t (e.symm.trans h)).2 odd).1

/-- The successor of a legal even phase is the odd phase of the same line (41_refresh_state_machine.md R130). -/
theorem nextPhase_of_even (hw : 3 ≤ pw) {p : BitVec pw} (legal : p.toNat ≤ 7) (even : codeHigh p = false) :
    codeHigh (nextPhase p) = true ∧ codeLine (nextPhase p) = codeLine p := by
  have remainder : p.toNat % 2 ≠ 1 := by
    rw [ne_eq, ← codeHigh_iff, even]
    exact nofun
  rw [codeHigh_iff, Fin.ext_iff, codeLine_val, codeLine_val, toNat_nextPhase hw legal]
  omega

/-- Settles O37: the even phase drives the byte it latches, and the odd phase after it the inverse of the byte it finds latched. -/
theorem acBalance : Obligations.AcBalance := by
  intro pw dw iw c s t u hc first even second
  obtain ⟨⟨hw, -, -⟩, -⟩ := admissible_parts hc
  obtain ⟨⟨-, -, -, lowOut⟩, legal⟩ := driven_of_consumedTick first
  obtain ⟨⟨-, -, -, highOut⟩, -⟩ := driven_of_consumedTick second
  have phase := consumedTick_phase second
  obtain ⟨odd, line⟩ := nextPhase_of_even hw legal even
  rw [← phase] at odd line
  have latch := segByte_of_consumedTick second odd
  simp only [even, odd, if_true, Bool.false_eq_true, if_false] at lowOut highOut
  exact ⟨by rw [highOut, latch, lowOut, inverted], line, odd⟩

/-! A frame. -/

/-- The number of the level a line is driven to (R160). -/
theorem levelValue_driven (c : Config pw dw iw) (b : Bool) : levelValue c (driven b) = if b then 2 else 0 := by
  cases b <;> rfl

/-- The drive of a cell when the ports are driven as the phase says (R160). -/
theorem cellDrive_of_driven {c : Config pw dw iw} {s : State pw dw iw} (hc : c.Admissible = true) (h : Driven c s) (k : Fin 4)
    (l : Fin 8) : cellDrive c s k l = (if s.segOut.getLsbD l then 2 else 0) -
      if k = codeLine s.phase then (if codeHigh s.phase then 2 else 0) else c.floatLevel := by
  rw [cellDrive, segPin_of_driven h.1, comPin_of_driven hc h, apply_ite (levelValue c), levelValue_driven, levelValue_driven]
  rfl

/-- The drives of a cell over the two phases of line j: the segment line shows its bit of the latched byte and then the inverse, against
line j low and then high, or against a floated line. -/
theorem cellDrive_of_pair {c : Config pw dw iw} {t : Nat → State pw dw iw} (hc : c.Admissible = true) (start : (t 0).phase = 7)
    (frame : ∀ n < 8, consumedTick c (t n) = .next (t (n + 1))) (k j : Fin 4) (l : Fin 8) :
    cellDrive c (t (2 * j.val + 1)) k l =
      (if (t (2 * j.val + 1)).segByte.getLsbD l then 2 else 0) - (if k = j then 0 else c.floatLevel) ∧
    cellDrive c (t (2 * j.val + 1 + 1)) k l =
      (if (t (2 * j.val + 1)).segByte.getLsbD l then 0 else 2) - (if k = j then 2 else c.floatLevel) := by
  have first := frame (2 * j.val) (by omega)
  have second := frame (2 * j.val + 1) (by omega)
  obtain ⟨phase, line, -⟩ := (frameVisitsEveryPhaseInOrder.2 c t hc start frame) (2 * j.val) (by omega)
  have lineIs : codeLine (t (2 * j.val + 1)).phase = j := Fin.ext (by omega)
  have even : codeHigh (t (2 * j.val + 1)).phase = false := by
    rw [← Bool.not_eq_true, codeHigh_iff]
    omega
  obtain ⟨opposite, sameLine, odd⟩ := acBalance c _ _ _ hc first even second
  obtain ⟨lowDriven, -⟩ := driven_of_consumedTick first
  obtain ⟨highDriven, -⟩ := driven_of_consumedTick second
  have out : (t (2 * j.val + 1)).segOut = (t (2 * j.val + 1)).segByte := by
    obtain ⟨-, -, -, shown⟩ := lowDriven
    simpa [even] using shown
  have inverse : (t (2 * j.val + 1 + 1)).segOut.getLsbD l = !(t (2 * j.val + 1)).segByte.getLsbD l := by
    rw [opposite, out]
    exact inverted_getLsbD _ l
  rw [cellDrive_of_driven hc lowDriven, cellDrive_of_driven hc highDriven, sameLine, inverse, out, lineIs, even, odd]
  exact ⟨rfl, by cases (t (2 * j.val + 1)).segByte.getLsbD l <;> rfl⟩

/-- The sum over a frame is that of line k's two phases and of the two phases of each of the three other lines. -/
theorem sum_frame_of_pairs {f : Nat → Int} {own other : Int} (k : Fin 4) (same : f (2 * k.val) + f (2 * k.val + 1) = own)
    (others : ∀ j : Fin 4, j ≠ k → f (2 * j.val) + f (2 * j.val + 1) = other) :
    ((List.range 8).map f).sum = own + 3 * other := by
  have pairs : ((List.range 8).map f).sum = ∑ j : Fin 4, (f (2 * j.val) + f (2 * j.val + 1)) := by
    simp [List.range_succ, Fin.sum_univ_four]
    ring
  rw [pairs, ← Finset.add_sum_erase _ _ (Finset.mem_univ k), same,
    Finset.sum_congr rfl fun j hj => others j (Finset.ne_of_mem_erase hj)]
  simp

/-- Settles O41: over the two phases of the cell's own line the drives cancel, over those of another line they sum to 2 − 2m
(`cellDrive_of_pair`). -/
theorem frameDcSum : Obligations.FrameDcSum := by
  intro pw dw iw c t hc start frame k l
  rw [sum_frame_of_pairs k (own := 0) (other := 2 - 2 * c.floatLevel) ?own fun j hj => ?other, zero_add]
  case own =>
    obtain ⟨low, high⟩ := cellDrive_of_pair hc start frame k k l
    rw [low, high, if_pos rfl, if_pos rfl]
    split <;> rfl
  case other =>
    obtain ⟨low, high⟩ := cellDrive_of_pair hc start frame k j l
    rw [low, high, if_neg hj.symm, if_neg hj.symm]
    split <;> ring

/-- Settles O42: over the two phases of the cell's own line the squares sum to 8 or to 0 as its bit is 1 or 0, over those of another line
to 2 (`cellDrive_of_pair`). -/
theorem frameDriveSquares : Obligations.FrameDriveSquares := by
  intro pw dw iw c t hc mid start frame k l
  rw [sum_frame_of_pairs k (own := if (t (2 * k.val + 1)).segByte.getLsbD l then 8 else 0) (other := 2) ?own fun j hj => ?other]
  · split <;> rfl
  case own =>
    obtain ⟨low, high⟩ := cellDrive_of_pair hc start frame k k l
    rw [low, high, if_pos rfl, if_pos rfl]
    split <;> rfl
  case other =>
    obtain ⟨low, high⟩ := cellDrive_of_pair hc start frame k j l
    rw [low, high, if_neg hj.symm, if_neg hj.symm, mid]
    split <;> rfl

end Machine
end Sys2Proof

/-! SUPPORT. The lookup and its fault: LUT of one digit, and PACK, LOW(k) and SERVICE where a digit exceeds 9 (42_segment_lookup.md R170,
R172, 60_exceptions.md R222). -/

namespace Sys2Proof
namespace Machine

variable {pw dw iw : Nat}

/-! LUT. -/

/-- LUT completes with the entry the table has at the index. -/
theorem lut_of_entry {c : Config pw dw iw} {v : Digit} {b : Byte} (h : c.segLut[v.toNat]? = some b) (s : State pw dw iw) :
    lut c v s = .next { s with returned := some b } :=
  returnByte_eq_next.2 ⟨b, lookup_eq_ok.2 h, rfl⟩

/-- LUT of a decimal digit completes with its entry, whatever the table. -/
theorem lut_of_le (c : Config pw dw iw) {v : Digit} (h : v.toNat ≤ 9) (s : State pw dw iw) :
    ∃ b, c.segLut[v.toNat]? = some b ∧ lut c v s = .next { s with returned := some b } := by
  have entry := lookup_eq_ok.1 (lookup_of_le c none h)
  exact ⟨_, entry, lut_of_entry entry s⟩

/-- LUT above 9 faults. It is made for no digit position. -/
theorem lut_of_gt (c : Config pw dw iw) {v : Digit} (h : 9 < v.toNat) (s : State pw dw iw) :
    lut c v s = .fault (.lutDomain none v.toNat) := by
  rw [lut, lookup_of_gt c none h]
  rfl

/-- LUT on the machine is LUT of its table. -/
theorem exec_lut (v : Digit) (s : State) : exec (.lut v) s = lut Config.machine v s := rfl

/-- Settles O26: LUT of a decimal digit (`lut_of_le`), LUT above 9 (`lut_of_gt`), and the two printed entries (`lut_of_entry`). -/
theorem lookupReadsTheTable : Obligations.LookupReadsTheTable := by
  intro v s
  simp only [exec_lut]
  exact ⟨fun decimal _ _ _ c s => lut_of_le c decimal s, fun decimal => lut_of_le _ decimal s, fun above => lut_of_gt _ above s,
    lut_of_entry rfl s, lut_of_entry rfl s⟩

/-! A digit above 9. -/

/-- Position `d` is the lowest whose digit exceeds 9. -/
def FirstAboveNine (x : Quad (BitVec dw)) (d : Fin 4) : Prop :=
  9 < (x.get d).toNat ∧ ∀ e, e < d → (x.get e).toNat ≤ 9

/-- The four patterns, by position. -/
theorem patterns_eq_get (c : Config pw dw iw) (x : Quad (BitVec dw)) : patterns c x = do
    let p0 ← lookup c (some 0) (x.get 0).toNat
    let p1 ← lookup c (some 1) (x.get 1).toNat
    let p2 ← lookup c (some 2) (x.get 2).toNat
    let p3 ← lookup c (some 3) (x.get 3).toNat
    return ⟨p0, p1, p2, p3⟩ := rfl

/-- The lookups are made from the units up, so the lowest digit above 9 is the one that faults (log 27). -/
theorem patterns_of_firstAboveNine (c : Config pw dw iw) {x : Quad (BitVec dw)} {d : Fin 4} (h : FirstAboveNine x d) :
    patterns c x = .error (.lutDomain (some d) (x.get d).toNat) := by
  obtain ⟨above, below⟩ := h
  have faults := lookup_of_gt c (some d) above
  have answers (e : Fin 4) (he : e < d) := lookup_of_le c (some e) (below e he)
  rw [patterns_eq_get]
  match d with
  | 0 => rw [faults]; rfl
  | 1 => rw [answers 0 (by decide), faults]; rfl
  | 2 => rw [answers 0 (by decide), answers 1 (by decide), faults]; rfl
  | 3 => rw [answers 0 (by decide), answers 1 (by decide), answers 2 (by decide), faults]; rfl

/-- PACK faults with its lookups. -/
theorem packDigits_of_firstAboveNine (c : Config pw dw iw) (k : Fin 4) {x : Quad (BitVec dw)} {d : Fin 4} (h : FirstAboveNine x d) :
    packDigits c k x = .error (.lutDomain (some d) (x.get d).toNat) := by
  rw [packDigits, patterns_of_firstAboveNine c h]
  rfl

/-! The operations that look up a digit fault with PACK. -/

section
variable {c : Config pw dw iw} {k : Fin 4} {s : State pw dw iw} {f : Fault}

theorem pack_of_error (h : packDigits c k s.digits = .error f) : pack c k s = .fault f := by
  rw [pack, h]
  rfl

theorem lowWrites_of_error (h : packDigits c k s.digits = .error f) : lowWrites c k s = .error f := by
  rw [lowWrites, h]
  rfl

theorem low_of_error (h : packDigits c k s.digits = .error f) : low c k s = .fault f := by
  rw [low, lowWrites_of_error h]
  rfl

/-- The new phase of a SERVICE is no reserved code, so its dispatch on an even one is LOW(k). -/
theorem emitWrites_nextPhase_of_even (c : Config pw dw iw) (s : State pw dw iw) (even : codeHigh (nextPhase s.phase) = false) :
    emitWrites c (nextPhase s.phase) s = lowWrites c (codeLine (nextPhase s.phase)) s := by
  simp [emitWrites, isReservedCode_nextPhase, even]

/-- A SERVICE of an even new phase faults as a whole (log 27). -/
theorem service_of_error (ready : s.ready = true) (even : codeHigh (nextPhase s.phase) = false)
    (h : packDigits c (codeLine (nextPhase s.phase)) s.digits = .error f) : service c s = .fault f := by
  rw [service, serviceEnabled, if_pos ready, serviceWrites_eq, emitWrites_nextPhase_of_even c s even, lowWrites_of_error h]
  rfl

end

/-- Settles O17: PACK faults with the lowest digit above 9 (`packDigits_of_firstAboveNine`), and LOW(k) and an even SERVICE fault with PACK. -/
theorem lookupFaultNamesTheDigit : Obligations.LookupFaultNamesTheDigit := by
  intro s d above below
  have packed (k : Fin 4) := packDigits_of_firstAboveNine Config.machine k ⟨above, below⟩
  refine ⟨fun k => ⟨pack_of_error (packed k), ?_⟩, fun ready even => service_of_error ready even (packed _)⟩
  rw [exec_lowInstr]
  exact low_of_error (packed k)

end Machine
end Sys2Proof

/-! SUPPORT. INCR and COUNT as operations of their own, and the hundredth consumed tick (43_bcd_counter.md R180 to R183). -/

namespace Sys2Proof
namespace Machine

variable {pw dw iw : Nat}

/-! INCR. -/

/-- INCR completes with the digits `incremented`, at any width of R8. -/
theorem incr_eq_incremented (hw : 4 ≤ dw) (c : Config pw dw iw) (s : State pw dw iw) :
    incr c s = .next { s with digits := incremented c s.digits } :=
  congrArg _ (performAll_incrWrites_eq hw c s)

/-- INCR on the machine. -/
theorem exec_incr (s : State) : exec .incr s = .next { s with digits := incremented Config.machine s.digits } :=
  incr_eq_incremented (by decide) Config.machine s

/-- Without the switch, INCR on decimal digits counts modulo 10000 (D14, log 6). -/
theorem number_incremented_of_wraps (hw : 4 ≤ dw) {c : Config pw dw iw} (wraps : c.overflowSkipsZero = false)
    {x : Quad (BitVec dw)} (h : digitsOk x) : number (incremented c x) = (number x + 1) % 10000 := by
  have decimal := number_le h
  rw [(incremented_spec hw c h).2, wraps, if_neg Bool.false_ne_true]
  split <;> omega

/-- Settles O44, by the end state of INCR (`exec_incr`) and what `incremented` does to decimal digits. -/
theorem incrAddsOneToTheNumber : Obligations.IncrAddsOneToTheNumber := fun s decimal =>
  ⟨incremented Config.machine s.digits, exec_incr s, (incremented_spec (by decide) Config.machine decimal).1,
    number_incremented_of_wraps (by decide) rfl decimal⟩

/-- Settles O45: `incremented` is the chain of carries stated, its last two cases told apart by the thousands digit. -/
theorem incrCarriesOnlyFromNine : Obligations.IncrCarriesOnlyFromNine := by
  intro s
  have wraps : Config.machine.overflowSkipsZero = false := rfl
  rw [exec_incr, incremented, wraps]
  by_cases c3 : s.digits.q3 = 9
  · simp only [c3, ne_eq, not_true_eq_false, Bool.false_eq_true, if_true, if_false]
  · simp only [c3, ne_eq, not_false_eq_true, if_true, if_false]

/-- Settles O46, by the end state of INCR and the digits after 9999 (`incremented_9999`). -/
theorem overflowFollowsTheSwitch : Obligations.OverflowFollowsTheSwitch := by
  intro pw dw iw c s hc shows
  obtain ⟨⟨-, hw, -⟩, -⟩ := admissible_parts hc
  rw [incr_eq_incremented hw, shows, incremented_9999]
  cases c.overflowSkipsZero <;> rfl

/-! COUNT. -/

/-- COUNT off the threshold steps INTERVAL and nothing else, whatever INTERVAL holds (log 4). -/
theorem count_of_not_reached {c : Config pw dw iw} {s : State pw dw iw} (h : intervalReached c (s.interval + 1) = false) :
    count c s = .next { s with interval := s.interval + 1 } := by
  rw [count, countWrites, h]
  rfl

/-- The machine's interval test holds after exactly one value of INTERVAL: 255 wraps to 0 and passes 100 by. -/
theorem intervalReached_machine_add_one (n : BitVec 8) : intervalReached Config.machine (n + 1) = true ↔ n = 99 := by
  have threshold : Config.machine.intervalThreshold = 100 := rfl
  rw [intervalReached, threshold, beq_iff_eq]
  bv_omega

/-- Settles O43, by the two cases of COUNT: off the threshold (`count_of_not_reached`), and at it (`performAll_countWrites_of_eq`). -/
theorem countStepsTheInterval : Obligations.CountStepsTheInterval := by
  intro s
  refine ⟨fun off => ?_, fun at99 => ⟨_, exec_incr s, ?_⟩⟩
  · exact count_of_not_reached (Bool.eq_false_iff.2 fun reached => off ((intervalReached_machine_add_one _).1 reached))
  · exact congrArg _ (performAll_countWrites_of_eq machine_admissible (by rw [at99]; rfl))

/-! The hundredth consumed tick. -/

/-- Decimal digits are determined by the number they show. -/
theorem digits_eq_of_number_eq {x y : Quad (BitVec dw)} (hx : digitsOk x) (hy : digitsOk y) (h : number x = number y) : x = y := by
  obtain ⟨x0, x1, x2, x3⟩ := x
  obtain ⟨y0, y1, y2, y3⟩ := y
  obtain ⟨hx0, hx1, hx2, hx3⟩ := hx
  obtain ⟨hy0, hy1, hy2, hy3⟩ := hy
  simp only [number] at *
  simp only [Quad.mk.injEq, ← BitVec.toNat_inj]
  omega

/-- Settles O47: within the contract the number and INTERVAL are the quotient and the remainder of the count held by 100, and the
count held steps by one with each consumed tick (`consumedTicks_ticksHeld`). -/
theorem hundredthTickStepsTheNumber : Obligations.HundredthTickStepsTheNumber := by
  intro s hs start
  have zero : s.interval.toNat = 0 := by rw [start]; rfl
  have threshold : Config.machine.intervalThreshold = 100 := rfl
  have decimal : digitsOk s.digits := hs.2.1
  have le := number_le decimal
  refine ⟨fun n hn => ?_, ?_⟩
  · obtain ⟨t, ht, ⟨-, digits, below⟩, -, held⟩ := consumedTicks_ticksHeld n hs
    simp only [ticksHeld] at held
    exact ⟨t, ht, digits_eq_of_number_eq digits decimal (by omega), by omega⟩
  · obtain ⟨t, ht, ⟨-, digits, below⟩, -, held⟩ := consumedTicks_ticksHeld 100 hs
    simp only [ticksHeld] at held
    exact ⟨t, ht, BitVec.eq_of_toNat_eq (show t.interval.toNat = 0 by omega), digits, fun _ => by omega⟩

end Machine
end Sys2Proof

/-! SUPPORT. SERVICE as its sub-steps, SLEEP and the halted processor, and the machine's own run from one sleep to the next
(44_service_and_sleep.md R200 to R207). -/

namespace Sys2Proof
namespace Machine

variable {pw dw iw : Nat}

/-! SERVICE. -/

/-- An enabled SERVICE makes its accesses, or faults with them. -/
theorem service_of_ready (c : Config pw dw iw) {s : State pw dw iw} (h : s.ready = true) :
    service c s = commit (serviceWrites c s) s := by
  simp [service, serviceEnabled, h]

/-- The accesses of a SERVICE are those of ADVANCE, the dispatch on the new phase, COUNT and the clear of READY, each part computed where
the part before it ends; a fault of the dispatch is the fault of the whole (44_service_and_sleep.md R200). -/
theorem commit_serviceWrites (c : Config pw dw iw) (s : State pw dw iw) :
    commit (serviceWrites c s) s =
      andThen (advance s) fun a => andThen (commit (emitWrites c a.phase a) a) fun e => andThen (count c e) fun n =>
        .next { n with ready := false } := by
  rw [advance, andThen_next, serviceWrites]
  rcases emitWrites c (performAll s (advanceWrites s)).phase (performAll s (advanceWrites s)) with f | ws
  · rfl
  · have made (counted : List (Write pw dw iw)) : performAll s (advanceWrites s ++ ws ++ counted ++ [.clearReady]) =
        { performAll (performAll (performAll s (advanceWrites s)) ws) counted with ready := false } := by
      rw [performAll_append, performAll_append, performAll_append]
      rfl
    exact congrArg _ (made _)

/-- Settles O14: the accesses fall into those of the sub-steps (`commit_serviceWrites`), and the dispatch performs the operation of the
new phase (`commit_emitWrites`). -/
theorem serviceIsItsSubstepsInOrder : Obligations.ServiceIsItsSubstepsInOrder := by
  refine ⟨fun s ready => ?_, fun s t unready completes => ?_⟩
  · have parts := (service_of_ready Config.machine ready).trans (commit_serviceWrites Config.machine s)
    simp only [commit_emitWrites, ← exec_eq_execWith] at parts
    exact parts
  · cases (service_of_not_ready Config.machine unready).symm.trans completes

/-- Settles O15: the refusal by `service_of_not_ready`, the example by running it. -/
theorem serviceRefusalAndExample : Obligations.ServiceRefusalAndExample :=
  ⟨fun _ unready => service_of_not_ready Config.machine unready, rfl⟩

/-- COUNT on the machine takes INTERVAL to its successor modulo 100, and off the threshold keeps the digits. -/
theorem performAll_countWrites_machine (s : State) :
    (performAll s (countWrites Config.machine s)).interval = (if s.interval + 1 = 100 then 0 else s.interval + 1) ∧
      (s.interval + 1 ≠ 100 → (performAll s (countWrites Config.machine s)).digits = s.digits) := by
  obtain ⟨off, at99⟩ := countStepsTheInterval s
  by_cases reached : s.interval = 99
  · obtain ⟨t, -, counted⟩ := at99 reached
    have e : performAll s (countWrites Config.machine s) = { t with interval := 0 } := Host.Outcome.next.inj counted
    simp [e, reached]
  · have e : performAll s (countWrites Config.machine s) = { s with interval := s.interval + 1 } :=
      Host.Outcome.next.inj (off reached)
    have below : s.interval + 1 ≠ 100 := by bv_omega
    rw [e, if_neg below]
    exact ⟨rfl, fun _ => rfl⟩

theorem sameHost_symm {s t : State pw dw iw} (h : sameHost s t) : sameHost t s := by
  simpa only [sameHost, eq_comm] using h

/-- Settles O16: the accesses can be computed (`serviceWrites_ok`), reach the block only (`sameHost_performAll`), and leave INTERVAL and
the digits where COUNT does. -/
theorem serviceCompletes : Obligations.ServiceCompletes := by
  intro s ready computable
  obtain ⟨ws, hws⟩ := serviceWrites_ok (c := Config.machine) computable
  obtain ⟨phase, cleared, interval, digits⟩ := performAll_serviceWrites_registers hws
  obtain ⟨counted, kept⟩ := performAll_countWrites_machine s
  have host := sameHost_performAll s (target_ne_none_of_mem_serviceWrites hws)
  exact ⟨performAll s ws, service_eq_next.2 ⟨ready, ws, hws, rfl⟩, phase, cleared, interval.trans counted,
    fun off => digits.trans (kept off), sameHost_symm host, performAll_schedule s ws, performAll_returned s ws⟩

/-! SLEEP and the halted processor. -/

/-- Settles O19, by the end state of SLEEP (`sleep_of_ready`). -/
theorem sleepEndsAtOnceOnAPendingTick : Obligations.SleepEndsAtOnceOnAPendingTick :=
  fun _ pending => sleep_of_ready pending

/-- A halted processor with nothing supplied takes the interrupt that is pending, and otherwise the timer fires: no move is one of the main
loop (60_exceptions.md R248). -/
theorem step_of_halted {s : State} (halted : s.halted = true) (free : s.schedule = []) :
    (interruptTaken s = true ∧ step s = tick s) ∨ (interruptTaken s = false ∧ step s = .next (fireTimer s)) := by
  rw [step_of_schedule_nil free]
  rcases ownMove_cases Config.machine s with ⟨taken, e⟩ | ⟨idle, -, e⟩ | ⟨-, run, -⟩ | ⟨-, run, -⟩ | ⟨-, run, -⟩
  · exact .inl ⟨taken, e⟩
  · exact .inr ⟨idle, e⟩
  all_goals exact absurd (halted.symm.trans run) nofun

/-- SLEEP completes with interrupts enabled, and changes the host's enables, the halt and the accesses still to be made only. -/
theorem sleep_eq (s : State pw dw iw) : ∃ en halt work,
    sleep s = .next { s with gie := true, sleepEn := en, halted := halt, work := work } := by
  rcases Bool.eq_false_or_eq_true s.ready with ready | unready
  · exact ⟨_, _, _, sleep_of_ready ready⟩
  · exact ⟨_, _, _, sleep_of_not_ready unready⟩

/-- Settles O18: SLEEP by its end state (`sleep_eq`, `sleep_of_not_ready`), and the sleep by the two moves of a halted processor
(`step_of_halted`). -/
theorem sleepKeepsTheBlock : Obligations.SleepKeepsTheBlock := by
  refine ⟨fun s => ?completes, fun s => sleep_of_not_ready, fun t u halted free h => ?_⟩
  case completes =>
    obtain ⟨en, halt, work, e⟩ := sleep_eq s
    exact ⟨_, e, fun r => by cases r <;> rfl, fun c => ⟨fun n => rfl, fun k => rfl⟩, rfl⟩
  rcases step_of_halted halted free with ⟨taken, e⟩ | ⟨-, e⟩
  · obtain ⟨n, ticked, -⟩ := tick_eq t
    have frame {r : Reg} (hr : r ≠ .ready) : readReg u r = readReg t r :=
      readReg_execWith (c := Config.machine) (i := .tick) (e.symm.trans h) (beq_false_of_ne hr)
    cases ticked.symm.trans (e.symm.trans h)
    exact ⟨rfl, fun r => frame, fun c => ⟨fun n => rfl, fun k => rfl⟩, fun idle => absurd (taken.symm.trans idle) nofun⟩
  · cases e.symm.trans h
    exact ⟨rfl, fun r _ => by cases r <;> rfl, fun c => ⟨fun n => rfl, fun k => rfl⟩, fun _ => ⟨halted, rfl⟩⟩

/-- Settles O21: each kind of step loses no wake-up (`step_cases`). -/
theorem noWakeupIsLost : Obligations.NoWakeupIsLost := by
  intro s t wake h
  rcases step_cases wake h with ⟨rest, -, rfl⟩ | ⟨p, rest, b, sd, so, cd, co, -, rfl⟩ | ⟨wake', -, -⟩
  · exact fun halted => absurd halted Bool.false_ne_true
  · exact wake
  · exact wake'

/-! The frame of every operation beyond the registers. -/

theorem sameHost_refl (s : State pw dw iw) : sameHost s s := ⟨rfl, rfl, rfl, rfl, rfl, rfl, rfl⟩

/-- The frame of every operation over the host's state and the returned byte, for any parameters (44_service_and_sleep.md R205,
60_exceptions.md R235; log 20). -/
theorem hostFrame_execWith {c : Config pw dw iw} {i : Instr} {s t : State pw dw iw} (h : execWith c i s = .next t) :
    (reachesHost i = false → sameHost s t) ∧
      ((∀ k, i ≠ .pack k) → (∀ v, i ≠ .lut v) → i ≠ .reset → t.returned = s.returned) := by
  cases i with
  | com0L | com1L | com2L | com3L =>
    obtain ⟨b, -, rfl⟩ := low_eq_next.1 h
    exact ⟨fun _ => sameHost_refl s, fun _ _ _ => rfl⟩
  | com0H | com1H | com2H | com3H =>
    cases (high_eq c _ s).symm.trans h
    exact ⟨fun _ => sameHost_refl s, fun _ _ _ => rfl⟩
  | off code =>
    cases (off_eq s).symm.trans h
    exact ⟨fun _ => sameHost_refl s, fun _ _ _ => rfl⟩
  | advance =>
    cases (advance_eq s).symm.trans h
    exact ⟨fun _ => sameHost_refl s, fun _ _ _ => rfl⟩
  | tick =>
    obtain ⟨n, e, -⟩ := tick_eq s
    cases e.symm.trans h
    exact ⟨nofun, fun _ _ _ => rfl⟩
  | service =>
    obtain ⟨-, ws, hws, rfl⟩ := service_eq_next.1 h
    exact ⟨fun _ => sameHost_symm (sameHost_performAll s (target_ne_none_of_mem_serviceWrites hws)),
      fun _ _ _ => performAll_returned s ws⟩
  | sleep =>
    obtain ⟨en, halt, work, e⟩ := sleep_eq s
    cases e.symm.trans h
    exact ⟨nofun, fun _ _ _ => rfl⟩
  | reset => exact ⟨nofun, fun _ _ other => absurd rfl other⟩
  | pack k =>
    obtain ⟨b, -, rfl⟩ := returnByte_eq_next.1 h
    exact ⟨fun _ => sameHost_refl s, fun other => absurd rfl (other k)⟩
  | lut v =>
    obtain ⟨b, -, rfl⟩ := returnByte_eq_next.1 h
    exact ⟨fun _ => sameHost_refl s, fun _ other => absurd rfl (other v)⟩
  | count =>
    cases (count_eq c s).symm.trans h
    exact ⟨fun _ => sameHost_refl s, fun _ _ _ => rfl⟩
  | incr =>
    cases (incr_eq c s).symm.trans h
    exact ⟨fun _ => sameHost_refl s, fun _ _ _ => rfl⟩

/-- Settles O51, by the end state of each operation (`execWith_backlog`, `hostFrame_execWith`). -/
theorem operationsKeepTheHost : Obligations.OperationsKeepTheHost := by
  intro i s t h
  rw [exec_eq_execWith] at h
  exact ⟨(execWith_backlog h).1, hostFrame_execWith h⟩

/-! The machine's own run from its sleep to its sleep. -/

/-- What TICK leaves of a sleeping machine: running, with the access after waking still to be made. -/
def awake (s : State) : State := { s with ready := true, halted := false, ticks := s.ticks + 1 }

/-- The waking machine once that access is made: between two loop bodies, with the tick waiting in READY. -/
def woken (s : State) : State := { awake s with sleepEn := false, work := [] }

/-- TICK in the sleep fires once, wakes the processor and loses nothing. -/
theorem tick_of_asleep {s : State} (rests : Asleep s) : tick s = .next (awake s) := by
  obtain ⟨-, -, -, unready, -, quiet⟩ := rests
  obtain ⟨n, e, count⟩ := tick_eq s
  simp [e, count, awake, unready, quiet]

/-- The interrupt of a firing that found none pending is the TICK of that firing (40_tick_source.md R120). -/
theorem tick_fireTimer {s : State pw dw iw} (quiet : s.timerEvent = false) : tick (fireTimer s) = tick s := by
  simp [tick, quiet]

/-- Left to itself in its sleep the machine wakes in three steps: the timer fires, the interrupt is taken, the access after waking is
made (44_service_and_sleep.md R205, 60_exceptions.md R248). -/
theorem runFor_wake {s : State} (rests : Asleep s) : runFor 3 s = .next (woken s) := by
  have ticked := tick_of_asleep rests
  obtain ⟨free, halted, exit, -, enabled, quiet⟩ := rests
  have fires : step s = .next (fireTimer s) := by
    rcases step_of_halted halted free with ⟨taken, -⟩ | ⟨-, e⟩
    · simp [interruptTaken, quiet] at taken
    · exact e
  have wakes : step (fireTimer s) = .next (awake s) := by
    rcases step_of_halted (s := fireTimer s) halted free with ⟨-, e⟩ | ⟨idle, -⟩
    · exact e.trans ((tick_fireTimer quiet).trans ticked)
    · simp [interruptTaken, enabled] at idle
  have ends : runFor 1 { awake s with work := sleepExit } = .next (woken s) :=
    runFor_writes (ws := sleepExit) (by decide) [] ⟨free, quiet, rfl⟩
  rw [runFor_succ_of_step fires, runFor_succ_of_step wakes, ← ends, ← exit]
  rfl

/-- The access after waking is outside the contract: a sleeping machine meets it as it is. -/
theorem contract_of_asleep {s : State} (inv : Inv Config.machine s) (rests : Asleep s) : Contract Config.machine s := by
  obtain ⟨-, keeps⟩ := inv
  obtain ⟨-, -, exit, -⟩ := rests
  rw [settled, exit] at keeps
  exact keeps

/-- Settles O59: the machine wakes (`runFor_wake`), its loop body makes the SERVICE and the SLEEP (`writeByWriteReachesTheEvents`), and the
SERVICE finds the registers that it finds after the TICK (`service_of_sameRegisters`). -/
theorem ownRunConsumesEveryTick : Obligations.OwnRunConsumesEveryTick := by
  intro s inv rests
  obtain ⟨-, decimal, -⟩ := contract_of_asleep inv rests
  have wakes := runFor_wake rests
  have ticked := tick_of_asleep rests
  obtain ⟨free, -, -, -, -, quiet⟩ := rests
  obtain ⟨v, served, -, unready, -, -, ⟨timer, -, -, -, work, ticks, marks⟩, schedule, -⟩ :=
    serviceCompletes (woken s) rfl (.inr decimal)
  have registers : sameRegisters (woken s) (awake s) := fun r => by cases r <;> rfl
  obtain ⟨u, consumed, same⟩ := service_of_sameRegisters (c := Config.machine) registers served
  have sleeps := sleep_of_not_ready unready
  obtain ⟨n, body⟩ := (writeByWriteReachesTheEvents (woken s) _ free rfl rfl quiet).1 rfl (andThen_eq_next.2 ⟨v, served, sleeps⟩)
  have run := (runFor_add 3 n s).trans ((congrArg (andThen · (runFor n)) wakes).trans body)
  obtain ⟨t, ran, inv', -⟩ := machineRunsForEver s (3 + n) inv free
  cases run.symm.trans ran
  refine ⟨3 + n, _, u, run, andThen_eq_next.2 ⟨_, ticked, consumed⟩, fun r => ?registers, ticks.symm, marks.symm, inv',
    ?asleep⟩
  case registers => exact (readReg_execWith (c := Config.machine) (i := .sleep) sleeps rfl).trans (same r)
  case asleep => exact ⟨schedule.trans free, rfl, congrArg (.sleepEn false :: ·) work.symm, unready, rfl, timer.symm.trans quiet⟩

end Machine
end Sys2Proof

/-! SUPPORT. The tick interrupt: its end state, its place among the accesses of a loop body, and the two contexts (60_exceptions.md R220 to
R248). -/

namespace Sys2Proof
namespace Machine

variable {pw dw iw : Nat}

/-! The end of a TICK. -/

/-- Where a TICK ends, up to the number of the tick (`tick_eq`, from its outcome). -/
theorem eq_of_tick {s t : State pw dw iw} (h : tick s = .next t) : ∃ n, t = { s with
    ready := true, timerEvent := false, halted := false, ticks := n,
    overruns := if s.ready then s.overruns ++ [n] else s.overruns } := by
  obtain ⟨n, e, -⟩ := tick_eq s
  exact ⟨n, Host.Outcome.next.inj (h.symm.trans e)⟩

/-- TICK writes READY only (40_tick_source.md R120). -/
theorem readReg_of_tick {s t : State} (h : tick s = .next t) {r : Reg} (hr : r ≠ .ready) : readReg t r = readReg s r :=
  operationsWriteOnlyTheirRegisters .tick s t r h (beq_false_of_ne hr)

/-- With nothing supplied, a pending enabled interrupt is the next move (60_exceptions.md R226). -/
theorem step_of_interruptTaken {s : State} (free : s.schedule = []) (taken : interruptTaken s = true) : step s = tick s := by
  rw [step_of_schedule_nil free, ownMove, if_pos taken]

/-- Settles O8: the step is the TICK (`step_of_interruptTaken`), whose end state says the rest. -/
theorem interruptEffectIsReady : Obligations.InterruptEffectIsReady := by
  intro s free taken
  obtain ⟨n, e, -⟩ := tick_eq s
  exact ⟨_, (step_of_interruptTaken free taken).trans e, rfl, fun r hr => readReg_of_tick e hr, rfl, rfl, rfl, rfl, rfl⟩

/-- Settles O9: the step is the firing alone, which reaches the timer's event, the count of ticks and, over a pending event, the marks. -/
theorem maskedTickWaits : Obligations.MaskedTickWaits := by
  intro s rest supplied
  have fires : step s = .next (fireTimer { s with schedule := rest }) := (stepMovesOnItsOwn.2 s _ rest supplied).2.1 rfl
  refine ⟨_, fires, fun r => by cases r <;> rfl, rfl, rfl, rfl, rfl, rfl, rfl, rfl, rfl,
    fun quiet => ?unpending, fun waits => ?pending, rfl, rfl⟩
  case unpending => simp [fireTimer, quiet]
  case pending => simp [fireTimer, waits]

/-- Settles O20: the move is the interrupt or a firing (`step_of_halted`), both of which keep registers and pins
(`sleepKeepsTheBlock`); the firing leaves the processor halted. -/
theorem onlyTheTickWakes : Obligations.OnlyTheTickWakes := by
  obtain ⟨-, -, asleep⟩ := sleepKeepsTheBlock
  intro s halted free
  rcases step_of_halted halted free with ⟨taken, e⟩ | ⟨-, e⟩
  · obtain ⟨n, ticked, -⟩ := tick_eq s
    obtain ⟨-, registers, pins, -⟩ := asleep s _ halted free (e.trans ticked)
    exact ⟨_, e.trans ticked, registers, pins, fun _ => ⟨taken, rfl⟩⟩
  · obtain ⟨-, registers, pins, -⟩ := asleep s _ halted free e
    refine ⟨_, e, registers, pins, fun running => ?_⟩
    simp [powerState, halted] at running

/-! READY along the accesses of the main loop. -/

/-- Accesses leave READY at 1 exactly when it was 1 and none of them clears it: none sets it (70_reset_and_hazards.md R272). -/
theorem ready_performAll_iff (s : State pw dw iw) (ws : List (Write pw dw iw)) :
    (performAll s ws).ready = true ↔ s.ready = true ∧ .clearReady ∉ ws := by
  induction ws generalizing s with
  | nil => simp
  | cons w ws ih =>
    rw [performAll_cons, ih]
    cases w <;> simp

/-- Settles O12: TICK finds READY = 1 and leaves every register as it was, the accesses go on from there (`sameRegisters_performAll`), and
one of them clears READY. -/
theorem tickInsideServiceIsLost : Obligations.TickInsideServiceIsLost := by
  intro s t ready clears h
  obtain ⟨n, rfl⟩ := eq_of_tick h
  refine ⟨sameRegisters_performAll (fun r => ?same) s.work, ?cleared, ?marked⟩
  case same =>
    by_cases hr : r = .ready
    · subst hr
      exact congrArg Bool.toNat ready
    · exact (readReg_of_tick h hr).symm
  case cleared =>
    refine Bool.eq_false_iff.2 fun stays => ?_
    exact ((ready_performAll_iff _ _).1 stays).2 clears
  case marked => simp [overrunMark, ready]

/-- From any place before its halt, the sleep sequence made with READY = 1 ends at once with the processor running, and READY as it was
(44_service_and_sleep.md R206). -/
theorem performAll_sleep_of_ready {s : State pw dw iw} (ready : s.ready = true) {n : Nat} (before : n ≤ 2) :
    (performAll s ((sleepEntry ++ sleepExit).drop n)).halted = false ∧
      (performAll s ((sleepEntry ++ sleepExit).drop n)).ready = true := by
  interval_cases n <;> simp [sleepEntry, sleepExit, ready]

/-- Settles O13: the halt is still to be made and finds READY = 1 (`performAll_sleep_of_ready`); TICK found READY = 0 and marks nothing. -/
theorem tickBeforeTheHaltIsNotLost : Obligations.TickBeforeTheHaltIsNotLost := by
  intro s t n before unready _ work h
  obtain ⟨m, e⟩ := eq_of_tick h
  have ready : t.ready = true := by rw [e]
  have place : t.work = (sleepEntry ++ sleepExit).drop n := by rw [e, work]
  obtain ⟨running, stays⟩ := performAll_sleep_of_ready ready before
  rw [settled, place]
  exact ⟨running, stays, by simp [e, unready]⟩

/-! After the halt. -/

/-- SLEEP halts only where no tick is pending. -/
theorem unready_of_sleep_halted {s t : State pw dw iw} (h : sleep s = .next t) (halted : t.halted = true) : s.ready = false := by
  rcases Bool.eq_false_or_eq_true s.ready with ready | unready
  · cases (sleep_of_ready ready).symm.trans h
    cases halted
  · exact unready

/-- In the main loop's own time the last access of SLEEP ends the loop body (44_service_and_sleep.md R205). -/
theorem step_of_sleepExit {s : State} (moves : MainLoopMoves s) (last : s.work = sleepExit) :
    step s = .next { s with sleepEn := false, work := [] } := by
  have ends := step_of_work_cons moves (.sleepEn false) []
  rw [← sleepExit, ← last] at ends
  exact ends

/-- In the main loop's own time, between two loop bodies, a step with READY = 1 begins a SERVICE (44_service_and_sleep.md R202). -/
theorem step_of_idle_ready {s : State} (moves : MainLoopMoves s) (idle : s.work = []) (ready : s.ready = true) {ws : List Write}
    (hws : serviceWrites Config.machine s = .ok ws) : step s = .next { s with work := ws ++ sleepEntry ++ sleepExit } :=
  step_of_work_nil moves idle (loopBody_eq_ok.2 ⟨ws, rfl, .inl ⟨ready, hws⟩⟩)

/-- Settles O10: after the TICK the main loop has SLEEP's last access to make (`step_of_sleepExit`), and then begins a SERVICE
(`step_of_idle_ready`), whose accesses the cleared SLEEP_EN does not change (`serviceWrites_congr`). -/
theorem wakingClearsSleepEnable : Obligations.WakingClearsSleepEnable := by
  intro s t u idle free slept halted ticked
  cases (sleep_of_not_ready (unready_of_sleep_halted slept halted)).symm.trans slept
  obtain ⟨n, e⟩ := eq_of_tick ticked
  have ready : u.ready = true := by rw [e]
  have last : u.work = sleepExit := by rw [e, idle, sleepExit]
  have moves : MainLoopMoves u := by rw [e]; exact ⟨free, rfl, rfl⟩
  refine ⟨step_of_sleepExit moves last, fun ws hws => ?_⟩
  exact step_of_idle_ready (s := { u with sleepEn := false, work := [] }) moves rfl ready
    (hws ▸ serviceWrites_congr Config.machine rfl rfl rfl rfl)

/-! The contexts. -/

/-- READY is in the columns of TICK, SERVICE and RESET only (10_state.md R28, R39). -/
theorem mayWrite_ready (i : Instr) : mayWrite i .ready = true ↔ i = .tick ∨ i = .service ∨ i = .reset := by
  cases i <;> simp [mayWrite]

/-- TICK is the only operation of the interrupt context (60_exceptions.md R240). -/
theorem contextOf_eq_interrupt_iff (i : Instr) : contextOf i = .interrupt ↔ i = .tick := by
  cases i <;> simp [contextOf]

/-- An operation of the main loop leaves READY as it was or at 0, for any parameters. -/
theorem ready_of_mainLoop {c : Config pw dw iw} {i : Instr} {s t : State pw dw iw} (h : execWith c i s = .next t)
    (context : contextOf i = .mainLoop) : t.ready = s.ready ∨ t.ready = false := by
  by_cases writes : mayWrite i .ready = true
  · rcases (mayWrite_ready i).1 writes with rfl | rfl | rfl
    · cases context
    · obtain ⟨-, ws, hws, rfl⟩ := service_eq_next.1 h
      exact .inr (performAll_serviceWrites_registers hws).2.1
    · cases context
  · have same := readReg_execWith h (Bool.eq_false_iff.2 writes)
    exact .inl (Function.LeftInverse.injective Bool.ofNat_toNat same)

/-- Settles O52: the interrupt context is TICK's, the main loop's by `ready_of_mainLoop`. -/
theorem contextsKeepToTheirRegisters : Obligations.ContextsKeepToTheirRegisters := by
  intro i s t h
  refine ⟨fun context => ?_, fun context => ready_of_mainLoop ((exec_eq_execWith i s).symm.trans h) context⟩
  obtain rfl := (contextOf_eq_interrupt_iff i).1 context
  obtain ⟨n, rfl⟩ := eq_of_tick h
  exact ⟨rfl, rfl, fun r => readReg_of_tick h, rfl, rfl, rfl⟩

end Machine
end Sys2Proof

/-! SUPPORT. Reset, and the pins between the writes of an operation (70_reset_and_hazards.md R260, R273). -/

namespace Sys2Proof
namespace Machine

variable {pw dw iw : Nat}

/-! Reset. -/

/-- RESET always completes, with the whole of its end state: cold start, and what is still to be supplied (log 30). -/
theorem exec_reset (s : State) : exec .reset s = .next { State.reset with schedule := s.schedule } := rfl

/-- Settles O22, by the end state of RESET (`exec_reset`), whose direction registers are 0. -/
theorem resetGivesColdStart : Obligations.ResetGivesColdStart :=
  fun s => ⟨_, exec_reset s, rfl, rfl, rfl, rfl, rfl, rfl, rfl, rfl, rfl, rfl, allFloat_of_dir_zero rfl rfl⟩

/-! No two common lines are driven. -/

/-- A common line is driven exactly when its bit of COM_DIR is 1 (10_state.md R33, R35). -/
theorem comPin_ne_Z_iff {c : Config pw dw iw} {s : State pw dw iw} {k : Fin 4} :
    comPin c s k ≠ .Z ↔ s.comDir.getLsbD (c.comBit.get k) = true := by
  rw [comPin, pinLevel]
  split
  case isTrue dir => exact iff_of_true (driven_ne_Z _) dir
  case isFalse dir => exact iff_of_false (fun floats => floats rfl) dir

/-- Which common lines are driven is a matter of COM_DIR alone. -/
theorem atMostOneLineDriven_congr {c : Config pw dw iw} {s t : State pw dw iw} (h : atMostOneLineDriven c s) (dir : t.comDir = s.comDir) :
    atMostOneLineDriven c t := by
  simpa only [atMostOneLineDriven, comPin_ne_Z_iff, dir] using h

/-- A value of COM_DIR that floats every common line or drives one of them alone. -/
def SelectsAtMostOneLine (c : Config pw dw iw) (dir : Byte) : Prop := dir = 0x00 ∨ ∃ k, dir = lineBit c k

/-- With such a value in COM_DIR no two common lines are driven, whatever COM_OUT holds. -/
theorem atMostOneLineDriven_of_comDir {c : Config pw dw iw} {s : State pw dw iw} (hc : c.Admissible = true)
    (dir : SelectsAtMostOneLine c s.comDir) : atMostOneLineDriven c s := by
  intro i j hi hj
  rw [comPin_ne_Z_iff] at hi hj
  rcases dir with zero | ⟨k, line⟩
  · simp [zero] at hi
  · rw [line, lineBit_getLsbD hc, decide_eq_true_eq] at hi hj
    exact hi.trans hj.symm

/-- An access that leaves COM_DIR alone or gives it such a value drives no second common line. -/
theorem atMostOneLineDriven_performWrite {c : Config pw dw iw} {s : State pw dw iw} {w : Write pw dw iw} (hc : c.Admissible = true)
    (hw : ∀ dir, w = .comDir dir → SelectsAtMostOneLine c dir) (h : atMostOneLineDriven c s) :
    atMostOneLineDriven c (performWrite s w) := by
  cases w with
  | comDir dir => exact atMostOneLineDriven_of_comDir hc (hw dir rfl)
  | _ => exact atMostOneLineDriven_congr h rfl

/-- Nor do accesses in order, where each leaves COM_DIR alone or gives it such a value. -/
theorem atMostOneLineDriven_performAll {c : Config pw dw iw} {s : State pw dw iw} {ws : List (Write pw dw iw)} (hc : c.Admissible = true)
    (hws : ∀ dir, .comDir dir ∈ ws → SelectsAtMostOneLine c dir) (h : atMostOneLineDriven c s) :
    atMostOneLineDriven c (performAll s ws) :=
  List.foldlRecOn ws performWrite h fun _ ih _ mem =>
    atMostOneLineDriven_performWrite hc (fun dir e => hws dir (e ▸ mem)) ih

/-- LOW(k)'s accesses are computed exactly when PACK answers. -/
theorem lowWrites_eq_ok {c : Config pw dw iw} {k : Fin 4} {s : State pw dw iw} {ws : List (Write pw dw iw)} :
    lowWrites c k s = .ok ws ↔ ∃ b, packDigits c k s.digits = .ok b ∧
      ws = [.segByte b, .segOut b, .segDir 0xFF, .comDir 0x00, .comOut 0x00, .comDir (lineBit c k)] := by
  rcases h : packDigits c k s.digits with f | b <;>
    simp [lowWrites, h, bind, Except.bind, pure, Except.pure, eq_comm]

/-- An operation with a phase code gives COM_DIR only values that drive at most one common line (D11, log 10). -/
theorem selectsAtMostOneLine_of_mem_emitWrites {c : Config pw dw iw} {qw : Nat} {p : BitVec qw} {s : State pw dw iw}
    {ws : List (Write pw dw iw)} (h : emitWrites c p s = .ok ws) {dir : Byte} (mem : .comDir dir ∈ ws) :
    SelectsAtMostOneLine c dir := by
  rcases emitWrites_cases c p s with ⟨-, e⟩ | ⟨-, -, e⟩ | ⟨-, -, e⟩
  · cases e.symm.trans h
    exact .inl (by simpa [offWrites] using mem)
  · cases e.symm.trans h
    exact .inr ⟨codeLine p, by simpa [highWrites] using mem⟩
  · obtain ⟨b, -, rfl⟩ := lowWrites_eq_ok.1 (e.symm.trans h)
    exact Or.imp_right (fun line => ⟨codeLine p, line⟩) (by simpa using mem)

/-- Settles O39: what an operation gives COM_DIR drives at most one line (`selectsAtMostOneLine_of_mem_emitWrites`), and so its
accesses, as far as they are made, drive no second (`atMostOneLineDriven_performAll`). -/
theorem neverTwoLinesDriven : Obligations.NeverTwoLinesDriven := fun _ _ _ _ _ hc start h =>
  atMostOneLineDriven_performAll hc (fun _ mem => selectsAtMostOneLine_of_mem_emitWrites h (List.mem_of_mem_take mem)) start

/-! The pins between the writes of LOW(k) and HIGH(k). -/

/-- The accesses of LOW(k), from the byte PACK answers. -/
theorem lowWrites_of_ok {c : Config pw dw iw} {k : Fin 4} {s : State pw dw iw} {b : Byte} (h : packDigits c k s.digits = .ok b) :
    lowWrites c k s = .ok [.segByte b, .segOut b, .segDir 0xFF, .comDir 0x00, .comOut 0x00, .comDir (lineBit c k)] :=
  lowWrites_eq_ok.2 ⟨b, h, rfl⟩

/-- With COM_DIR 0 every common line floats. -/
theorem comPin_of_comDir_zero {c : Config pw dw iw} {s : State pw dw iw} (dir : s.comDir = 0x00) (k : Fin 4) : comPin c s k = .Z := by
  rw [comPin, dir, pinLevel_zero]

/-- With the bit of line k alone in COM_DIR, line k is low with COM_OUT 0. -/
theorem comPin_self_low {c : Config pw dw iw} {s : State pw dw iw} {k : Fin 4} (hc : c.Admissible = true)
    (dir : s.comDir = lineBit c k) (out : s.comOut = 0x00) : comPin c s k = .L :=
  (comPin_of_lineBit (high := false) hc dir out k).trans (if_pos rfl)

/-- With the bit of line k alone in COM_DIR, line k is high with its bit alone in COM_OUT. -/
theorem comPin_self_high {c : Config pw dw iw} {s : State pw dw iw} {k : Fin 4} (hc : c.Admissible = true)
    (dir : s.comDir = lineBit c k) (out : s.comOut = lineBit c k) : comPin c s k = .H :=
  (comPin_of_lineBit (high := true) hc dir out k).trans (if_pos rfl)

/-- Settles O40: the accesses made so far leave their values in the port registers, which are read at the pins: LOW(k) shows the new byte
against line j still high, then floats every common line, then drives line k low; from the fallback it drives the segment lines first;
HIGH(k) raises line k before it inverts the segment lines. -/
theorem pinStatesInsideAService : Obligations.PinStatesInsideAService := by
  refine ⟨fun c j k s b hc _ packed seg dir out => ?fromHigh, fun c k s b packed seg dir => ?fromFloat,
    fun c k s hc seg shown dir _ => ?afterLow⟩
  case fromHigh =>
    refine ⟨_, lowWrites_of_ok packed, ⟨?_, segPin_of_driven seg⟩, ⟨?_, segPin_of_driven rfl⟩, ?_, segPin_of_driven rfl⟩
    · exact comPin_self_high hc dir out
    · exact comPin_of_comDir_zero rfl
    · exact comPin_self_low hc rfl rfl
  case fromFloat =>
    refine ⟨_, lowWrites_of_ok packed, ?_, ?_, segPin_of_driven rfl⟩
    · exact allFloat_of_dir_zero (by exact seg) (by exact dir) c
    · exact comPin_of_comDir_zero dir
  case afterLow =>
    have segDriven : (performAll s ((highWrites c k s).take 3)).segDir = 0xFF := seg
    refine ⟨⟨comPin_self_high hc dir rfl, fun n => ?_⟩, comPin_self_high hc rfl rfl, fun n => ?_⟩
    · rw [← shown]
      exact segPin_of_driven seg n
    · exact (segPin_of_driven segDriven n).trans (congrArg driven (inverted_getLsbD s.segByte n))

end Machine
end Sys2Proof
